-- ==== Sys2Proof/Word.lean ====
section
/-! DEFINITION. The widths of the machine (spec/00_scope.md R5, R8): every value is unsigned and nothing is sign-extended. -/

namespace Sys2Proof

/-- A general register, a timer, the stack pointer, a memory cell: 8 bits (R20, R24, R26, R28). -/
abbrev Byte := BitVec 8

/-- An instruction word, `PC`, `I`, a stack entry: 16 bits (R22, R23, R25, R80). -/
abbrev Word := BitVec 16

/-- A field of four bits: a register number `x`, `y`, or the row count `n` of `DRW` (R81). -/
abbrev Nibble := BitVec 4

/-- The 12-bit address field `nnn` (R81). -/
abbrev Addr12 := BitVec 12

end Sys2Proof
end

