-- ==== Sys2Proof/Syntax.lean ====
section
/-! DEFINITION. The 34 instructions (spec/30_encoding.md R86, one constructor per row of spec/opcode_table.json). The operand
fields carry their widths in their types, so no term of `Instr` holds an operand the encoding lacks. -/

namespace Sys2Proof

/-- One CHIP-8 instruction: `x`, `y` number registers, `kk` is a byte, `nnn` an address, `n` a row count (R81 to R83). -/
inductive Instr where
  /-- `CLS` 00E0 (R120). -/
  | cls
  /-- `RET` 00EE (R121). -/
  | ret
  /-- `JP nnn` 1nnn (R122). -/
  | jp (nnn : Addr12)
  /-- `CALL nnn` 2nnn (R123). -/
  | call (nnn : Addr12)
  /-- `SE Vx, kk` 3xkk (R130). -/
  | seImm (x : Nibble) (kk : Byte)
  /-- `SNE Vx, kk` 4xkk (R131). -/
  | sneImm (x : Nibble) (kk : Byte)
  /-- `SE Vx, Vy` 5xy0 (R132). -/
  | seReg (x y : Nibble)
  /-- `LD Vx, kk` 6xkk (R140). -/
  | ldImm (x : Nibble) (kk : Byte)
  /-- `ADD Vx, kk` 7xkk (R141). -/
  | addImm (x : Nibble) (kk : Byte)
  /-- `LD Vx, Vy` 8xy0 (R142). -/
  | ldReg (x y : Nibble)
  /-- `OR Vx, Vy` 8xy1 (R143). -/
  | orReg (x y : Nibble)
  /-- `AND Vx, Vy` 8xy2 (R144). -/
  | andReg (x y : Nibble)
  /-- `XOR Vx, Vy` 8xy3 (R145). -/
  | xorReg (x y : Nibble)
  /-- `ADD Vx, Vy` 8xy4 (R146). -/
  | addReg (x y : Nibble)
  /-- `SUB Vx, Vy` 8xy5 (R147). -/
  | subReg (x y : Nibble)
  /-- `SHR Vx` 8xy6 (R148); `y` is decoded and ignored, and kept here so that the word can be written back. -/
  | shr (x y : Nibble)
  /-- `SUBN Vx, Vy` 8xy7 (R149). -/
  | subnReg (x y : Nibble)
  /-- `SHL Vx` 8xyE (R150); `y` is decoded and ignored, as in `shr`. -/
  | shl (x y : Nibble)
  /-- `SNE Vx, Vy` 9xy0 (R133). -/
  | sneReg (x y : Nibble)
  /-- `LD I, nnn` Annn (R160). -/
  | ldI (nnn : Addr12)
  /-- `JP V0, nnn` Bnnn (R161). -/
  | jpV0 (nnn : Addr12)
  /-- `RND Vx, kk` Cxkk (R162). -/
  | rnd (x : Nibble) (kk : Byte)
  /-- `DRW Vx, Vy, n` Dxyn (R170). -/
  | drw (x y n : Nibble)
  /-- `SKP Vx` Ex9E (R180). -/
  | skp (x : Nibble)
  /-- `SKNP Vx` ExA1 (R181). -/
  | sknp (x : Nibble)
  /-- `LD Vx, DT` Fx07 (R182). -/
  | ldVxDt (x : Nibble)
  /-- `LD Vx, K` Fx0A (R185). -/
  | ldVxK (x : Nibble)
  /-- `LD DT, Vx` Fx15 (R183). -/
  | ldDtVx (x : Nibble)
  /-- `LD ST, Vx` Fx18 (R184). -/
  | ldStVx (x : Nibble)
  /-- `ADD I, Vx` Fx1E (R190). -/
  | addI (x : Nibble)
  /-- `LD F, Vx` Fx29 (R191). -/
  | ldF (x : Nibble)
  /-- `LD B, Vx` Fx33 (R192). -/
  | ldB (x : Nibble)
  /-- `LD [I], Vx` Fx55 (R193); `x` is the last register stored. -/
  | storeRegs (x : Nibble)
  /-- `LD Vx, [I]` Fx65 (R194); `x` is the last register loaded. -/
  | loadRegs (x : Nibble)
  deriving DecidableEq, Repr

/-- The mnemonic of an instruction, as spec/opcode_table.json spells it. -/
def Instr.mnemonic : Instr → String
  | .cls => "CLS"
  | .ret => "RET"
  | .jp _ => "JP_nnn"
  | .call _ => "CALL_nnn"
  | .seImm _ _ => "SE_Vx__kk"
  | .sneImm _ _ => "SNE_Vx__kk"
  | .seReg _ _ => "SE_Vx__Vy"
  | .ldImm _ _ => "LD_Vx__kk"
  | .addImm _ _ => "ADD_Vx__kk"
  | .ldReg _ _ => "LD_Vx__Vy"
  | .orReg _ _ => "OR_Vx__Vy"
  | .andReg _ _ => "AND_Vx__Vy"
  | .xorReg _ _ => "XOR_Vx__Vy"
  | .addReg _ _ => "ADD_Vx__Vy"
  | .subReg _ _ => "SUB_Vx__Vy"
  | .shr _ _ => "SHR_Vx"
  | .subnReg _ _ => "SUBN_Vx__Vy"
  | .shl _ _ => "SHL_Vx"
  | .sneReg _ _ => "SNE_Vx__Vy"
  | .ldI _ => "LD_I__nnn"
  | .jpV0 _ => "JP_V0__nnn"
  | .rnd _ _ => "RND_Vx__kk"
  | .drw _ _ _ => "DRW_Vx__Vy__n"
  | .skp _ => "SKP_Vx"
  | .sknp _ => "SKNP_Vx"
  | .ldVxDt _ => "LD_Vx__DT"
  | .ldVxK _ => "LD_Vx__K"
  | .ldDtVx _ => "LD_DT__Vx"
  | .ldStVx _ => "LD_ST__Vx"
  | .addI _ => "ADD_I__Vx"
  | .ldF _ => "LD_F__Vx"
  | .ldB _ => "LD_B__Vx"
  | .storeRegs _ => "LD__I___Vx"
  | .loadRegs _ => "LD_Vx___I"

end Sys2Proof
end

