-- ==== Sys2Proof/WellFormed.lean ====
section
/-! DEFINITION. What is well formed on this machine. A term of `Instr` cannot be ill formed: every operand field has exactly the
width the encoding gives it (spec/30_encoding.md R81, R83: all sixteen register numbers, all 256 values of `kk`, all 4096 of `nnn`
and all 16 of `n` are legal). What can be ill formed is a WORD: 21582 of the 65536 select no instruction (R87). The check is
the spec's own map of masks and matches (R86), written here apart from the decoder so that the two can be compared. -/

namespace Sys2Proof

/-- One row of the opcode map (R86): a word `w` selects it when `w &&& mask = pattern`. -/
structure OpRow where
  mnemonic : String
  mask : Word
  pattern : Word
  deriving DecidableEq, Repr

/-- The complete map, 34 rows in the table's order (R86, spec/opcode_table.json). -/
def opcodeMap : List OpRow :=
  [⟨"CLS", 0xFFFF, 0x00E0⟩,
   ⟨"RET", 0xFFFF, 0x00EE⟩,
   ⟨"JP_nnn", 0xF000, 0x1000⟩,
   ⟨"CALL_nnn", 0xF000, 0x2000⟩,
   ⟨"SE_Vx__kk", 0xF000, 0x3000⟩,
   ⟨"SNE_Vx__kk", 0xF000, 0x4000⟩,
   ⟨"SE_Vx__Vy", 0xF00F, 0x5000⟩,
   ⟨"LD_Vx__kk", 0xF000, 0x6000⟩,
   ⟨"ADD_Vx__kk", 0xF000, 0x7000⟩,
   ⟨"LD_Vx__Vy", 0xF00F, 0x8000⟩,
   ⟨"OR_Vx__Vy", 0xF00F, 0x8001⟩,
   ⟨"AND_Vx__Vy", 0xF00F, 0x8002⟩] ++
  [⟨"XOR_Vx__Vy", 0xF00F, 0x8003⟩,
   ⟨"ADD_Vx__Vy", 0xF00F, 0x8004⟩,
   ⟨"SUB_Vx__Vy", 0xF00F, 0x8005⟩,
   ⟨"SHR_Vx", 0xF00F, 0x8006⟩,
   ⟨"SUBN_Vx__Vy", 0xF00F, 0x8007⟩,
   ⟨"SHL_Vx", 0xF00F, 0x800E⟩,
   ⟨"SNE_Vx__Vy", 0xF00F, 0x9000⟩,
   ⟨"LD_I__nnn", 0xF000, 0xA000⟩,
   ⟨"JP_V0__nnn", 0xF000, 0xB000⟩,
   ⟨"RND_Vx__kk", 0xF000, 0xC000⟩,
   ⟨"DRW_Vx__Vy__n", 0xF000, 0xD000⟩] ++
  [⟨"SKP_Vx", 0xF0FF, 0xE09E⟩,
   ⟨"SKNP_Vx", 0xF0FF, 0xE0A1⟩,
   ⟨"LD_Vx__DT", 0xF0FF, 0xF007⟩,
   ⟨"LD_Vx__K", 0xF0FF, 0xF00A⟩,
   ⟨"LD_DT__Vx", 0xF0FF, 0xF015⟩,
   ⟨"LD_ST__Vx", 0xF0FF, 0xF018⟩,
   ⟨"ADD_I__Vx", 0xF0FF, 0xF01E⟩,
   ⟨"LD_F__Vx", 0xF0FF, 0xF029⟩,
   ⟨"LD_B__Vx", 0xF0FF, 0xF033⟩,
   ⟨"LD__I___Vx", 0xF0FF, 0xF055⟩,
   ⟨"LD_Vx___I", 0xF0FF, 0xF065⟩]

/-- The word selects the row (R86). -/
def OpRow.selects (r : OpRow) (w : Word) : Bool := w &&& r.mask == r.pattern

/-- A word is well formed when some row of the map selects it (R86); every other word is illegal (R87 to R90). -/
def wordWellFormed (w : Word) : Bool := opcodeMap.any (·.selects w)

end Sys2Proof
end

