-- ==== Sys2Proof/Decode.lean ====
section
/-! DEFINITION. Decoding (spec/30_encoding.md): the fields of a word (R81), the dispatch on the family and its selector (R84, R85,
R89), the illegal words rejected by name (R87), the encoder written from the same formats (R82), and the host's reading of
a table word. -/

namespace Sys2Proof

/-- Why bytes do not decode. -/
inductive DecodeError where
  /-- The word matches no row of the map (R87). -/
  | illegal (op : Word)
  /-- Fewer than two bytes are left: an instruction is one 16-bit word (R80). -/
  | truncated
  deriving DecidableEq, Repr

/-! ### Fields (R81) -/

/-- `f`, bits 15:12: the instruction family. -/
def fieldF (op : Word) : Nibble := op.extractLsb' 12 4

/-- `x`, bits 11:8. -/
def fieldX (op : Word) : Nibble := op.extractLsb' 8 4

/-- `y`, bits 7:4. -/
def fieldY (op : Word) : Nibble := op.extractLsb' 4 4

/-- `n`, bits 3:0. -/
def fieldN (op : Word) : Nibble := op.extractLsb' 0 4

/-- `kk`, bits 7:0. -/
def fieldKK (op : Word) : Byte := op.extractLsb' 0 8

/-- `nnn`, bits 11:0. -/
def fieldNNN (op : Word) : Addr12 := op.extractLsb' 0 12

/-! ### The dispatch -/

/-- Family 0x0: on the whole low 12 bits (R85, R88). -/
def decodeFamily0 (op : Word) : Except DecodeError Instr :=
  if fieldNNN op = 0x0E0#12 then .ok .cls
  else if fieldNNN op = 0x0EE#12 then .ok .ret
  else .error (.illegal op)

/-- Family 0x5: defined for the low nibble 0 only (R89). -/
def decodeFamily5 (op : Word) : Except DecodeError Instr :=
  if fieldN op = 0#4 then .ok (.seReg (fieldX op) (fieldY op)) else .error (.illegal op)

/-- Family 0x8: on the low nibble, nine selectors (R85, R89). -/
def decodeFamily8 (op : Word) : Except DecodeError Instr :=
  match fieldN op with
  | 0x0#4 => .ok (.ldReg (fieldX op) (fieldY op))
  | 0x1#4 => .ok (.orReg (fieldX op) (fieldY op))
  | 0x2#4 => .ok (.andReg (fieldX op) (fieldY op))
  | 0x3#4 => .ok (.xorReg (fieldX op) (fieldY op))
  | 0x4#4 => .ok (.addReg (fieldX op) (fieldY op))
  | 0x5#4 => .ok (.subReg (fieldX op) (fieldY op))
  | 0x6#4 => .ok (.shr (fieldX op) (fieldY op))
  | 0x7#4 => .ok (.subnReg (fieldX op) (fieldY op))
  | 0xE#4 => .ok (.shl (fieldX op) (fieldY op))
  | _ => .error (.illegal op)

/-- Family 0x9: defined for the low nibble 0 only (R89). -/
def decodeFamily9 (op : Word) : Except DecodeError Instr :=
  if fieldN op = 0#4 then .ok (.sneReg (fieldX op) (fieldY op)) else .error (.illegal op)

/-- Family 0xE: on the low byte, two selectors (R85, R89). -/
def decodeFamilyE (op : Word) : Except DecodeError Instr :=
  match fieldKK op with
  | 0x9E#8 => .ok (.skp (fieldX op))
  | 0xA1#8 => .ok (.sknp (fieldX op))
  | _ => .error (.illegal op)

/-- Family 0xF: on the low byte, nine selectors (R85, R89). -/
def decodeFamilyF (op : Word) : Except DecodeError Instr :=
  match fieldKK op with
  | 0x07#8 => .ok (.ldVxDt (fieldX op))
  | 0x0A#8 => .ok (.ldVxK (fieldX op))
  | 0x15#8 => .ok (.ldDtVx (fieldX op))
  | 0x18#8 => .ok (.ldStVx (fieldX op))
  | 0x1E#8 => .ok (.addI (fieldX op))
  | 0x29#8 => .ok (.ldF (fieldX op))
  | 0x33#8 => .ok (.ldB (fieldX op))
  | 0x55#8 => .ok (.storeRegs (fieldX op))
  | 0x65#8 => .ok (.loadRegs (fieldX op))
  | _ => .error (.illegal op)

/-- Decode one word: dispatch on the family nibble (R84, R104). -/
def decodeWord (op : Word) : Except DecodeError Instr :=
  match fieldF op with
  | 0x0#4 => decodeFamily0 op
  | 0x1#4 => .ok (.jp (fieldNNN op))
  | 0x2#4 => .ok (.call (fieldNNN op))
  | 0x3#4 => .ok (.seImm (fieldX op) (fieldKK op))
  | 0x4#4 => .ok (.sneImm (fieldX op) (fieldKK op))
  | 0x5#4 => decodeFamily5 op
  | 0x6#4 => .ok (.ldImm (fieldX op) (fieldKK op))
  | 0x7#4 => .ok (.addImm (fieldX op) (fieldKK op))
  | 0x8#4 => decodeFamily8 op
  | 0x9#4 => decodeFamily9 op
  | 0xA#4 => .ok (.ldI (fieldNNN op))
  | 0xB#4 => .ok (.jpV0 (fieldNNN op))
  | 0xC#4 => .ok (.rnd (fieldX op) (fieldKK op))
  | 0xD#4 => .ok (.drw (fieldX op) (fieldY op) (fieldN op))
  | 0xE#4 => decodeFamilyE op
  | 0xF#4 => decodeFamilyF op
  | _ => .error (.illegal op)

/-- The word two bytes make: big-endian, the byte at the lower address in bits 15:8 (R55, R80). -/
def wordOfBytes (hi lo : Byte) : Word := hi ++ lo

/-- Decode from a byte sequence: the instruction and the bytes after it (R80, R104). -/
def decode : List Byte → Except DecodeError (Instr × List Byte)
  | hi :: lo :: rest =>
    match decodeWord (wordOfBytes hi lo) with
    | .ok i => .ok (i, rest)
    | .error e => .error e
  | _ => .error .truncated

/-! ### The encoder -/

/-- Format A, `fnnn` (R82). -/
def formatA (f : Nibble) (nnn : Addr12) : Word := f ++ nnn

/-- Format XK, `fxkk` (R82). -/
def formatXK (f x : Nibble) (kk : Byte) : Word := f ++ x ++ kk

/-- Formats XY and XYN, `fxys` and `fxyn` (R82). -/
def formatXYN (f x y n : Nibble) : Word := f ++ x ++ y ++ n

/-- The word of an instruction, from the formats and numbers of R82 and R86. Formats E and X are XK with the selector in the
low byte. -/
def encode : Instr → Word
  | .cls => 0x00E0
  | .ret => 0x00EE
  | .jp nnn => formatA 0x1 nnn
  | .call nnn => formatA 0x2 nnn
  | .seImm x kk => formatXK 0x3 x kk
  | .sneImm x kk => formatXK 0x4 x kk
  | .seReg x y => formatXYN 0x5 x y 0x0
  | .ldImm x kk => formatXK 0x6 x kk
  | .addImm x kk => formatXK 0x7 x kk
  | .ldReg x y => formatXYN 0x8 x y 0x0
  | .orReg x y => formatXYN 0x8 x y 0x1
  | .andReg x y => formatXYN 0x8 x y 0x2
  | .xorReg x y => formatXYN 0x8 x y 0x3
  | .addReg x y => formatXYN 0x8 x y 0x4
  | .subReg x y => formatXYN 0x8 x y 0x5
  | .shr x y => formatXYN 0x8 x y 0x6
  | .subnReg x y => formatXYN 0x8 x y 0x7
  | .shl x y => formatXYN 0x8 x y 0xE
  | .sneReg x y => formatXYN 0x9 x y 0x0
  | .ldI nnn => formatA 0xA nnn
  | .jpV0 nnn => formatA 0xB nnn
  | .rnd x kk => formatXK 0xC x kk
  | .drw x y n => formatXYN 0xD x y n
  | .skp x => formatXK 0xE x 0x9E
  | .sknp x => formatXK 0xE x 0xA1
  | .ldVxDt x => formatXK 0xF x 0x07
  | .ldVxK x => formatXK 0xF x 0x0A
  | .ldDtVx x => formatXK 0xF x 0x15
  | .ldStVx x => formatXK 0xF x 0x18
  | .addI x => formatXK 0xF x 0x1E
  | .ldF x => formatXK 0xF x 0x29
  | .ldB x => formatXK 0xF x 0x33
  | .storeRegs x => formatXK 0xF x 0x55
  | .loadRegs x => formatXK 0xF x 0x65

/-- The two bytes of a word, in the order memory holds them: high byte first (R55, R80). -/
def bytesOfWord (w : Word) : List Byte := [w.extractLsb' 8 8, w.extractLsb' 0 8]

/-- The bytes of an instruction as a program holds them. -/
def encodeBytes (i : Instr) : List Byte := bytesOfWord (encode i)

/-! ### Words as the opcode table numbers them -/

/-- The bytes, in the order memory holds them, of the one-word instruction whose bits are `w`: the bits above `nbits` are 0. -/
def tableWordBytes (nbits w : Nat) : List Byte := bytesOfWord (BitVec.ofNat 16 (w % 2 ^ nbits))

/-- The instruction the decoder reads from those bytes; `none` where it refuses. -/
def decodeTableWord (nbits w : Nat) : Option Instr :=
  match decode (tableWordBytes nbits w) with
  | .ok (i, _) => some i
  | .error _ => none

end Sys2Proof
end

