-- ==== Sys2Proof/Config.lean ====
section
/-! DEFINITION. What the spec fixes as a size (spec/00_scope.md R5), what it leaves open as a parameter (`FONT_BASE`,
`FONT_TABLE`), and the free values: the byte `RND` draws and everything a faulted core is left with. A constant declared
`opaque` has no body: no proof can see what it is, so a theorem that mentions it holds for every value it may have. -/

namespace Sys2Proof

/-- `MEM_SIZE` (R5, R28). -/
def Config.memSize : Nat := 4096

/-- `PROG_BASE`, the entry point and the address a ROM is loaded at (R5, R253). -/
def Config.progBase : Nat := 0x200

/-- `ROM_MAX` = 4096 - 512 (R5, R251). -/
def Config.romMax : Nat := 3584

/-- `STACK_DEPTH` (R5, R25). -/
def Config.stackDepth : Nat := 16

/-- `FONT_SIZE` = 16 glyphs of `GLYPH_BYTES` = 5 (R5, R66). -/
def Config.fontSize : Nat := 80

/-- `GLYPH_BYTES` (R5). -/
def Config.glyphBytes : Nat := 5

/-- `FONT_BASE`, OPEN (R5, D1; log 4). Its type is the spec's one constraint `FONT_BASE + 80 <= 0x200`: a number up to 432. -/
opaque Config.fontBaseParam : Fin 433

/-- `FONT_BASE` as the address it is (R5). -/
def Config.fontBase : Nat := Config.fontBaseParam.val

/-- `FONT_TABLE`, OPEN (R5, R66, D2; log 4): 80 bytes, none of which a proof may lean on. -/
opaque Config.fontTable : Fin 80 → Byte

/-- The standard font, the DEFAULT of `FONT_TABLE` (R66, from general knowledge by the spec's own mark): glyph d is the d-th
group of five rows, top row first. The machine itself reads `Config.fontTable`; this table is for tests and for claims
that name it (log 4). -/
def Config.standardFont : List Byte :=
  [0xF0, 0x90, 0x90, 0x90, 0xF0,  0x20, 0x60, 0x20, 0x20, 0x70,
   0xF0, 0x10, 0xF0, 0x80, 0xF0,  0xF0, 0x10, 0xF0, 0x10, 0xF0] ++
  [0x90, 0x90, 0xF0, 0x10, 0x10,  0xF0, 0x80, 0xF0, 0x10, 0xF0,
   0xF0, 0x80, 0xF0, 0x90, 0xF0,  0xF0, 0x10, 0x20, 0x40, 0x40] ++
  [0xF0, 0x90, 0xF0, 0x90, 0xF0,  0xF0, 0x90, 0xF0, 0x10, 0xF0,
   0xF0, 0x90, 0xF0, 0x90, 0x90,  0xE0, 0x90, 0xE0, 0x90, 0xE0] ++
  [0xF0, 0x80, 0x80, 0x80, 0xF0,  0xE0, 0x90, 0x90, 0x90, 0xE0,
   0xF0, 0x80, 0xF0, 0x80, 0xF0,  0xF0, 0x80, 0xF0, 0x80, 0x80]

/-- The byte of the draw numbered `d`: `draw_byte()` of R9, any of 0..255 under no law (R162, D15; log 1). -/
opaque Config.randomByte : Nat → Byte

/-! What a faulted core is left with is unspecified (R230, U10): one free value per piece of state, for the fault that is draw
number `d` (log 2). -/

/-- `V[r]` of a faulted core (R230; log 2). -/
opaque Config.faultedV (d r : Nat) : Byte

/-- `I` of a faulted core (R230; log 2). -/
opaque Config.faultedI (d : Nat) : Word

/-- `PC` of a faulted core (R230; log 2). -/
opaque Config.faultedPC (d : Nat) : Word

/-- `SP` of a faulted core (R230; log 2). -/
opaque Config.faultedSP (d : Nat) : Byte

/-- `stack[j]` of a faulted core (R230; log 2). -/
opaque Config.faultedStack (d j : Nat) : Word

/-- `DT` of a faulted core (R230; log 2). -/
opaque Config.faultedDT (d : Nat) : Byte

/-- `ST` of a faulted core (R230; log 2). -/
opaque Config.faultedST (d : Nat) : Byte

/-- `mem[a]` of a faulted core (R230; log 2). -/
opaque Config.faultedMem (d a : Nat) : Byte

/-- `fb[x, y]` of a faulted core (R230; log 2). -/
opaque Config.faultedPixel (d x y : Nat) : Bool

/-- `keys[k]` of a faulted core (R230; log 2). -/
opaque Config.faultedKey (d k : Nat) : Bool

/-- `redraw` of a faulted core (R230; log 2). -/
opaque Config.faultedRedraw (d : Nat) : Bool

/-- `sound` of a faulted core (R230; log 2). -/
opaque Config.faultedSound (d : Nat) : Bool

end Sys2Proof
end

