-- ==== Sys2Proof/Machine/State.lean ====
section
/-! DEFINITION. The state of the core, whole (spec/10_state.md: the tuple S), as plain data; the causes of a fault; the reasons a
step can stop; the state after reset. -/

namespace Sys2Proof.Machine

/-- Memory as its cells that differ from what they hold at reset: addresses strictly rising, no cell equal to its reset
content (`Memory.wf` in Ops.lean). -/
abbrev Memory := List Host.Cell

/-- The framebuffer: 32 rows of 64 pixels, `true` = lit (R29, R202). -/
abbrev FrameBuffer := Vector (Vector Bool 64) 32

/-- The causes of a fault with the information each records (R221). -/
inductive Cause where
  /-- Code 1: `Init` of a ROM of `length` bytes, more than 3584 (R222). -/
  | configError (length : Nat)
  /-- Code 2: the word `op` fetched from address `a` matches no instruction (R223). -/
  | illegalInstruction (op a : Word)
  /-- Code 3: an access to an address above 0xFFF (R224). -/
  | memoryBounds (addr : Nat)
  /-- Code 4: `CALL` with sixteen entries on the stack (R225). -/
  | stackOverflow
  /-- Code 5: `RET` with no entry on the stack (R226). -/
  | stackUnderflow
  /-- Code 6: `SKP` or `SKNP` of a key number above 15 (R227, R186). -/
  | keyIndex (k : Byte)
  deriving DecidableEq, Repr

/-- The fault latch (R33): set by `raise`, never cleared. -/
inductive Status where
  | running
  | faulted (cause : Cause)
  deriving DecidableEq, Repr

/-- The state of the core (10_state.md, the tuple S), and the model's own counter `draws`. -/
structure State where
  /-- `V[0..15]` (R20); `V[15]` is `VF`, the only flag (R21). -/
  v : Vector Byte 16
  /-- `I`, the address register (R22). -/
  i : Word
  /-- `PC` (R23). -/
  pc : Word
  /-- `SP`, the number of return addresses on the stack (R24). -/
  sp : Byte
  /-- `stack[0..15]` (R25). -/
  stack : Vector Word 16
  /-- `DT`, the delay timer (R26). -/
  dt : Byte
  /-- `ST`, the sound timer (R27). -/
  st : Byte
  /-- `mem[0..4095]` (R28). -/
  mem : Memory
  /-- `fb[0..63, 0..31]` (R29). -/
  fb : FrameBuffer
  /-- `keys[0..15]`, `true` = held down (R30). -/
  keys : Vector Bool 16
  /-- The step output flag `redraw` (R31). -/
  redraw : Bool
  /-- The step output flag `sound` (R31). -/
  sound : Bool
  /-- The fault latch `status` (R33). -/
  status : Status
  /-- DESIGN CHOICE, the model's own: how many free values have been drawn (log 1). No rule of the spec names it. -/
  draws : Nat
  deriving DecidableEq, Repr

/-- Why the machine stops with no next state. A fault of the SPEC is not among these: it is a next state whose `status` is
latched (`raise` in Ops.lean). -/
inductive Fault where
  /-- Raised by `step` alone, on a core whose status is `Faulted cause`: `Step` is enabled only when `status = Running` (R100)
  and there is no way back (R231). Safe: the spec gives such a core no step. -/
  | stepNotEnabled (cause : Cause)
  /-- Raised by `CALL` with `SP` above 16 and by `RET` with `SP` above 16: the stack has no entry of that index (R25). Safe: the
  spec gives `SP` the values 0..16 (R24, R36) and no run leaves them (DESIGN CHOICE, log 5). -/
  | noSuchStackEntry (index : Nat)
  deriving DecidableEq, Repr

/-- Why an instruction has no meaning. -/
inductive Refusal where
  /-- Raised by an arm of `exec` whose instruction has no meaning yet, under its mnemonic. Safe: nothing is claimed of it. -/
  | notModelled (mnemonic : String)
  deriving DecidableEq, Repr

/-- The core after reset (R250): what `Init` of the empty ROM leaves (DESIGN CHOICE, log 6). Memory lists nothing: an unlisted address reads as its
reset content, the font inside 0x000..0x1FF and zero elsewhere (R252). -/
def State.reset : State where
  v := Vector.replicate 16 0
  i := 0
  pc := 0x200
  sp := 0
  stack := Vector.replicate 16 0
  dt := 0
  st := 0
  mem := []
  fb := Vector.replicate 32 (Vector.replicate 64 false)
  keys := Vector.replicate 16 false
  redraw := false
  sound := false
  status := .running
  draws := 0

end Sys2Proof.Machine
end

