-- ==== Sys2Proof/Machine/Ops.lean ====
section
/-! DEFINITION. The named operations over memory, registers, stack, framebuffer and keypad (spec/00_scope.md R9), taking a
fault (spec/60_exceptions.md R220, R230), and the fetch (spec/40_step_cycle.md R102 to R104). There is no return from a fault
(R231): the only way to run again is a new `Init` (Machine/Driver.lean). -/

namespace Sys2Proof.Machine

/-! ### Memory -/

/-- What an unlisted address reads as: its reset content (R252; DESIGN CHOICE in the representation, log 3). The font is looked at only below 0x200, where its parameter
places it (R5, R51). -/
def Memory.unlisted (a : Nat) : Byte :=
  if Config.progBase ≤ a then 0
  else if h : Config.fontBase ≤ a ∧ a < Config.fontBase + Config.fontSize then
    Config.fontTable ⟨a - Config.fontBase, by simp only [Config.fontSize] at h; omega⟩
  else 0

/-- The canonical form from address `lo` on: addresses strictly rising, inside memory, no cell equal to its reset content. -/
def Memory.wfFrom : Nat → Memory → Bool
  | _, [] => true
  | lo, (a, b) :: m =>
    decide (lo ≤ a) && decide (a < Config.memSize) && decide (b ≠ Memory.unlisted a) && Memory.wfFrom (a + 1) m

/-- The canonical form of memory: equal contents are equal lists. -/
def Memory.wf (m : Memory) : Bool := Memory.wfFrom 0 m

/-- The byte `mem[a]`, with no check. -/
def Memory.get : Memory → Nat → Byte
  | [], a => Memory.unlisted a
  | (k, b) :: m, a => if a = k then b else Memory.get m a

/-- Put a cell in front, unless it says what an unlisted address reads as. -/
def Memory.place (a : Nat) (b : Byte) (m : Memory) : Memory :=
  if b = Memory.unlisted a then m else (a, b) :: m

/-- `mem[a] <- b`, with no check, keeping the canonical form. -/
def Memory.put : Memory → Nat → Byte → Memory
  | [], a, b => Memory.place a b []
  | (k, c) :: m, a, b =>
    if k < a then (k, c) :: Memory.put m a b
    else if k = a then Memory.place a b m
    else Memory.place a b ((k, c) :: m)

/-- The memory whose byte at each of the 4096 addresses is `f a`; not unfolded by the elaborator, since its list is long. -/
@[irreducible] def Memory.ofFn (f : Nat → Byte) : Memory :=
  (List.range Config.memSize).foldr (fun a m => Memory.place a (f a) m) []

/-- `MemRead(addr, 1)` (R52): bounds-checked at the access, the address never reduced. -/
def readByte (m : Memory) (addr : Nat) : Except Cause Byte :=
  if addr < Config.memSize then .ok (m.get addr) else .error (.memoryBounds addr)

/-- `MemWrite(addr, 1, v)` (R53). -/
def writeByte (m : Memory) (addr : Nat) (b : Byte) : Except Cause Memory :=
  if addr < Config.memSize then .ok (m.put addr b) else .error (.memoryBounds addr)

/-- `n` bytes read at ascending addresses from `addr` (R58); the first address out of bounds is the one reported (R229). -/
def readBytes (m : Memory) (addr : Nat) : Nat → Except Cause (List Byte)
  | 0 => .ok []
  | n + 1 =>
    match readByte m addr with
    | .error c => .error c
    | .ok b =>
      match readBytes m (addr + 1) n with
      | .error c => .error c
      | .ok bs => .ok (b :: bs)

/-- Bytes written at ascending addresses from `addr` (R58); the first address out of bounds is the one reported (R229). -/
def writeBytes (m : Memory) (addr : Nat) : List Byte → Except Cause Memory
  | [] => .ok m
  | b :: bs =>
    match writeByte m addr b with
    | .error c => .error c
    | .ok m' => writeBytes m' (addr + 1) bs

/-! ### Registers -/

/-- `V[r]` (R20). -/
def getV (s : State) (r : Nibble) : Byte := s.v[r.toNat]'r.isLt

/-- `V[r] <- b` (R20): no register is hardwired. -/
def setV (s : State) (r : Nibble) (b : Byte) : State := { s with v := s.v.set r.toNat b r.isLt }

/-- The number of `VF` (R21). -/
abbrev vf : Nibble := 15

/-- `PC <- target`. -/
def setPC (s : State) (target : Word) : State := { s with pc := target }

/-- `PC <- PC + 2`, the taken half of every skip (R107; 42_skips.md). -/
def skipNext (s : State) : State := setPC s (s.pc + 2)

/-- `PC <- PC - 2`, the rewind of the key wait (R185). -/
def rewindPC (s : State) : State := setPC s (s.pc - 2)

/-- `I <- a`. -/
def setI (s : State) (a : Word) : State := { s with i := a }

/-! ### Taking a fault -/

/-- `raise Cause(info)` (R220): the status is latched. Nothing is saved and control goes nowhere; ALL other state of a faulted
core is unspecified (R230, U10), so each of it is a free value (DESIGN CHOICE, log 2). -/
def raise (c : Cause) (s : State) : State where
  v := Vector.ofFn fun r => Config.faultedV s.draws r.val
  i := Config.faultedI s.draws
  pc := Config.faultedPC s.draws
  sp := Config.faultedSP s.draws
  stack := Vector.ofFn fun j => Config.faultedStack s.draws j.val
  dt := Config.faultedDT s.draws
  st := Config.faultedST s.draws
  mem := Memory.ofFn (Config.faultedMem s.draws)
  fb := Vector.ofFn fun y => Vector.ofFn fun x => Config.faultedPixel s.draws x.val y.val
  keys := Vector.ofFn fun k => Config.faultedKey s.draws k.val
  redraw := Config.faultedRedraw s.draws
  sound := Config.faultedSound s.draws
  status := .faulted c
  draws := s.draws + 1

/-- The label of a cause (R221, the first column of its table; D19). -/
def causeCode : Cause → Nat
  | .configError _ => 1
  | .illegalInstruction _ _ => 2
  | .memoryBounds _ => 3
  | .stackOverflow => 4
  | .stackUnderflow => 5
  | .keyIndex _ => 6

/-- What an instruction answers: its effect, or the fault it raised, taken. -/
def finish (s : State) : Except Cause State → Host.Outcome State Fault Refusal
  | .ok t => .next t
  | .error c => .next (raise c s)

/-! ### The call stack (R25) -/

/-- Push a return address: `stack[SP] <- w; SP <- SP + 1` (R25, R123). -/
def pushEntry (s : State) (w : Word) (h : s.sp.toNat < 16) : State :=
  { s with stack := s.stack.set s.sp.toNat w h, sp := s.sp + 1 }

/-- Pop a return address: `SP <- SP - 1; PC <- stack[SP]` (R25, R121). The entry keeps its content. -/
def popEntry (s : State) (h : s.sp.toNat - 1 < 16) : State :=
  { s with sp := s.sp - 1, pc := s.stack[s.sp.toNat - 1]'h }

/-! ### The framebuffer (R29) -/

/-- Every pixel off. -/
def blankScreen : FrameBuffer := Vector.replicate 32 (Vector.replicate 64 false)

/-- `fb[X mod 64, Y mod 32]` for any natural `X`, `Y` (R29, R172). -/
def getPixel (fb : FrameBuffer) (px py : Nat) : Bool :=
  (fb[py % 32]'(Nat.mod_lt _ (by decide)))[px % 64]'(Nat.mod_lt _ (by decide))

/-- `fb[X mod 64, Y mod 32] <- b` for any natural `X`, `Y` (R29, R172). -/
def setPixel (fb : FrameBuffer) (px py : Nat) (b : Bool) : FrameBuffer :=
  let row := fb[py % 32]'(Nat.mod_lt _ (by decide))
  fb.set (py % 32) (row.set (px % 64) b (Nat.mod_lt _ (by decide))) (Nat.mod_lt _ (by decide))

/-! ### The keypad (R30) -/

/-- `keys[k]`. -/
def keyDown (s : State) (k : Nibble) : Bool := s.keys[k.toNat]'k.isLt

/-- `min { k | keys[k] = true }`, if any key is down (R185). -/
def lowestKey (s : State) : Option Nat := s.keys.toList.findIdx? (· == true)

/-! ### Fetch (R102 to R104) -/

/-- Fetch: the byte at `PC`, then the byte at `PC + 1`, each bounds-checked, big-endian (R55, R102). -/
def fetchWord (s : State) : Except Cause Word :=
  match readByte s.mem s.pc.toNat with
  | .error c => .error c
  | .ok hi =>
    match readByte s.mem (s.pc.toNat + 1) with
    | .error c => .error c
    | .ok lo => .ok (wordOfBytes hi lo)

/-- Fetch and decode; a word of no instruction raises `IllegalInstruction` with the word and its address (R104, R223). -/
def fetchInstr (s : State) : Except Cause Instr :=
  match fetchWord s with
  | .error c => .error c
  | .ok op =>
    match decodeWord op with
    | .ok i => .ok i
    | .error _ => .error (.illegalInstruction op s.pc)

/-- What a step does before the instruction executes: both step flags cleared (R101) and `PC` advanced by 2 (R103). -/
def beginStep (s : State) : State := { s with redraw := false, sound := false, pc := s.pc + 2 }

end Sys2Proof.Machine
end

