-- ==== Sys2Proof/Machine/Flags.lean ====
section
/-! DEFINITION. Every flag computation the spec gives (spec/10_state.md R21, R31; spec/43_load_alu.md R146 to R151): the flag is
always exactly 0 or 1, computed on the exact operands, and written last. -/

namespace Sys2Proof.Machine

/-- A flag as the byte `VF` receives (R151d). -/
def flagByte (b : Bool) : Byte := if b then 1 else 0

/-- Carry of `a + b`: 1 when the exact sum is 256 or more (R146). -/
def carryOf (a b : Byte) : Bool := decide (256 ≤ a.toNat + b.toNat)

/-- No borrow in `a - b`: 1 when `a >= b` (R147, R149). -/
def noBorrow (a b : Byte) : Bool := decide (b.toNat ≤ a.toNat)

/-- The bit a right shift by one pushes out: bit 0 (R148). -/
def shiftedOutRight (a : Byte) : Bool := a.getLsbD 0

/-- The bit a left shift by one pushes out: bit 7 (R150). -/
def shiftedOutLeft (a : Byte) : Bool := a.getLsbD 7

/-- The result to `V[x]` first, the flag to `VF` second: with x = 15 the flag wins (R151c, D6). -/
def setResultAndFlag (s : State) (x : Nibble) (result : Byte) (flag : Bool) : State :=
  setV (setV s x result) vf (flagByte flag)

end Sys2Proof.Machine
end

