-- ==== Sys2Proof/Machine/Operands.lean ====
section
/-! DEFINITION. Every operand form the spec gives (spec/30_encoding.md R83; spec/47_index_memory.md: the only addressing mode is
`I` plus a small constant offset): immediates, the indexed target, the glyph address, the key number, register ranges and
decimal digits. -/

namespace Sys2Proof.Machine

/-- `nnn` as an address: zero-extended to 16 bits (R83, R122, R160). -/
def addressOf (nnn : Addr12) : Word := nnn.setWidth 16

/-- `nnn + V0`: a 16-bit sum, not reduced mod 4096 (R161). -/
def indexedTarget (s : State) (nnn : Addr12) : Word := addressOf nnn + (getV s 0).setWidth 16

/-- `(I + b) mod 4096`, zero-extended (R190). -/
def indexSum (s : State) (b : Byte) : Word := BitVec.ofNat 16 ((s.i.toNat + b.toNat) % 4096)

/-- `FONT_BASE + 5 * d` for the low nibble d of the byte (R191). -/
def glyphAddress (b : Byte) : Word := BitVec.ofNat 16 (Config.fontBase + Config.glyphBytes * (b.toNat % 16))

/-- A register's value as a key number; above 15 there is no such key (R186). -/
def keyOperand (b : Byte) : Except Cause Nibble :=
  if b.toNat ≤ 15 then .ok (b.setWidth 4) else .error (.keyIndex b)

/-- The three decimal digits, hundreds first, each a byte 0..9 (R192). -/
def decimalDigits (b : Byte) : List Byte :=
  [BitVec.ofNat 8 (b.toNat / 100), BitVec.ofNat 8 (b.toNat / 10 % 10), BitVec.ofNat 8 (b.toNat % 10)]

/-- The values of `V0 .. Vx`, ascending: x + 1 of them (R193). -/
def regsThrough (s : State) (x : Nibble) : List Byte := s.v.toList.take (x.toNat + 1)

/-- `V[k], V[k+1], ... <- bytes`, ascending (R194). -/
def fillRegs (v : Vector Byte 16) (k : Nat) : List Byte → Vector Byte 16
  | [] => v
  | b :: bs => fillRegs (v.setIfInBounds k b) (k + 1) bs

end Sys2Proof.Machine
end

