-- ==== Sys2Proof/Machine/Draw.lean ====
section
/-! DEFINITION. Sprite draw (spec/45_draw.md R170 to R172), pixel by pixel in the order of the rule's two loops. -/

namespace Sys2Proof.Machine

/-- A screen being drawn on, and whether a set pixel has been turned off so far (`hit` of R170). -/
abbrev Drawing := FrameBuffer × Bool

/-- One sprite bit at column `px`, row `py` (both taken mod the screen's size, R172): a 0 bit does nothing, a 1 bit flips the
pixel and records a collision when it was set. -/
def drawBit (d : Drawing) (px py : Nat) (bit : Bool) : Drawing :=
  if bit then (setPixel d.1 px py (!getPixel d.1 px py), d.2 || getPixel d.1 px py) else d

/-- The columns `col`, `col + 1`, ... of one sprite byte: bit `7 - col` is column `col`, bit 7 leftmost (R171, D16). -/
def drawCols (vx py : Nat) (b : Byte) (d : Drawing) : List Nat → Drawing
  | [] => d
  | col :: cols => drawCols vx py b (drawBit d (vx + col) py (b.getLsbD (7 - col))) cols

/-- One sprite row of eight columns (R170). -/
def drawRow (vx py : Nat) (b : Byte) (d : Drawing) : Drawing := drawCols vx py b d [0, 1, 2, 3, 4, 5, 6, 7]

/-- The sprite rows from screen row `py` down (R170). -/
def drawRows (vx py : Nat) (d : Drawing) : List Byte → Drawing
  | [] => d
  | b :: bs => drawRows vx (py + 1) (drawRow vx py b d) bs

/-- `DRW Vx, Vy, n` (R170): the sprite bytes are read first, which differs from the rule's loop only in what a faulted core is
left with, and that is unspecified (R230). `VF` and `redraw` are written always, also when n = 0. -/
def execDrw (x y n : Nibble) (s : State) : Host.Outcome State Fault Refusal :=
  finish s <|
    match readBytes s.mem s.i.toNat n.toNat with
    | .error c => .error c
    | .ok bytes =>
      let d := drawRows (getV s x).toNat (getV s y).toNat (s.fb, false) bytes
      .ok (setV { s with fb := d.1, redraw := true } vf (flagByte d.2))

end Sys2Proof.Machine
end

