-- ==== Sys2Proof/Machine/Flow.lean ====
section
/-! DEFINITION. Screen clear, return, jump, call (spec/41_flow.md). On entry `PC` is already the address after the instruction
(R103). -/

namespace Sys2Proof.Machine

/-- `CLS` (R120): every pixel off; `redraw` stays as the step left it, false (D17). -/
def execCls (s : State) : Host.Outcome State Fault Refusal := .next { s with fb := blankScreen }

/-- `RET` (R121, R226): `StackUnderflow` when `SP = 0`, else pop into `PC`. -/
def execRet (s : State) : Host.Outcome State Fault Refusal :=
  if s.sp = 0 then .next (raise .stackUnderflow s)
  else if h : s.sp.toNat - 1 < 16 then .next (popEntry s h)
  else .fault (.noSuchStackEntry (s.sp.toNat - 1))

/-- `JP nnn` (R122). -/
def execJp (nnn : Addr12) (s : State) : Host.Outcome State Fault Refusal := .next (setPC s (addressOf nnn))

/-- `CALL nnn` (R123, R225): `StackOverflow` when `SP = 16`, else push the advanced `PC` and jump. -/
def execCall (nnn : Addr12) (s : State) : Host.Outcome State Fault Refusal :=
  if s.sp = 16 then .next (raise .stackOverflow s)
  else if h : s.sp.toNat < 16 then .next (setPC (pushEntry s s.pc h) (addressOf nnn))
  else .fault (.noSuchStackEntry s.sp.toNat)

end Sys2Proof.Machine
end

