-- ==== Sys2Proof/Machine/IndexJumpRandom.lean ====
section
/-! DEFINITION. Load the address register, indexed jump, random (spec/44_index_jump_random.md). -/

namespace Sys2Proof.Machine

/-- `LD I, nnn` (R160). -/
def execLdI (nnn : Addr12) (s : State) : Host.Outcome State Fault Refusal := .next (setI s (addressOf nnn))

/-- `JP V0, nnn` (R161, C4, D10): the index is always `V0`, the sum is not reduced; a target above 0xFFE is the next fetch's
fault. -/
def execJpV0 (nnn : Addr12) (s : State) : Host.Outcome State Fault Refusal := .next (setPC s (indexedTarget s nnn))

/-- A fresh free byte: `draw_byte()` (R9) of this state, and the state with the draw spent (log 1). -/
def drawByte (s : State) : Byte × State := (Config.randomByte s.draws, { s with draws := s.draws + 1 })

/-- `RND Vx, kk` (R162, D15): the drawn byte AND kk. -/
def execRnd (x : Nibble) (kk : Byte) (s : State) : Host.Outcome State Fault Refusal :=
  .next (setV (drawByte s).2 x ((drawByte s).1 &&& kk))

end Sys2Proof.Machine
end

