-- ==== Sys2Proof/Machine/IndexMemory.lean ====
section
/-! DEFINITION. Address-register arithmetic, font address, BCD, bulk store and load (spec/47_index_memory.md). `I` is the only
address and no access moves it (D9). -/

namespace Sys2Proof.Machine

/-- `ADD I, Vx` (R190): 12-bit wraparound, no flag. -/
def execAddI (x : Nibble) (s : State) : Host.Outcome State Fault Refusal := .next (setI s (indexSum s (getV s x)))

/-- `LD F, Vx` (R191): the glyph of the low nibble of `Vx`. -/
def execLdF (x : Nibble) (s : State) : Host.Outcome State Fault Refusal := .next (setI s (glyphAddress (getV s x)))

/-- Store bytes at `I`, `I + 1`, ... (R192, R193). -/
def storeAtI (bytes : List Byte) (s : State) : Host.Outcome State Fault Refusal :=
  finish s <|
    match writeBytes s.mem s.i.toNat bytes with
    | .error c => .error c
    | .ok m => .ok { s with mem := m }

/-- `LD B, Vx` (R192): three decimal digits at `I`, `I + 1`, `I + 2`. -/
def execLdB (x : Nibble) (s : State) : Host.Outcome State Fault Refusal := storeAtI (decimalDigits (getV s x)) s

/-- `LD [I], Vx` (R193): `V0 .. Vx` at `I`, ..., `I + x`. -/
def execStoreRegs (x : Nibble) (s : State) : Host.Outcome State Fault Refusal := storeAtI (regsThrough s x) s

/-- `LD Vx, [I]` (R194): `V0 .. Vx` from `I`, ..., `I + x`. -/
def execLoadRegs (x : Nibble) (s : State) : Host.Outcome State Fault Refusal :=
  finish s <|
    match readBytes s.mem s.i.toNat (x.toNat + 1) with
    | .error c => .error c
    | .ok bytes => .ok { s with v := fillRegs s.v 0 bytes }

end Sys2Proof.Machine
end

