-- ==== Sys2Proof/Machine/Skips.lean ====
section
/-! DEFINITION. Conditional skips on registers (spec/42_skips.md): equality of unsigned bytes; only `PC` may change. -/

namespace Sys2Proof.Machine

/-- Skip the next instruction when the condition holds: `PC <- PC + 2` once more (R107a). -/
def skipIf (c : Bool) (s : State) : Host.Outcome State Fault Refusal := .next (if c then skipNext s else s)

/-- `SE Vx, kk` (R130). -/
def execSeImm (x : Nibble) (kk : Byte) (s : State) : Host.Outcome State Fault Refusal :=
  skipIf (getV s x == kk) s

/-- `SNE Vx, kk` (R131). -/
def execSneImm (x : Nibble) (kk : Byte) (s : State) : Host.Outcome State Fault Refusal :=
  skipIf (getV s x != kk) s

/-- `SE Vx, Vy` (R132). -/
def execSeReg (x y : Nibble) (s : State) : Host.Outcome State Fault Refusal :=
  skipIf (getV s x == getV s y) s

/-- `SNE Vx, Vy` (R133). -/
def execSneReg (x y : Nibble) (s : State) : Host.Outcome State Fault Refusal :=
  skipIf (getV s x != getV s y) s

end Sys2Proof.Machine
end

