-- ==== Sys2Proof/Machine/KeypadTimers.lean ====
section
/-! DEFINITION. Keypad skips, timer access, key wait (spec/46_keypad_timers.md). The keypad is read as last written by the driver
(R258) and never written here. -/

namespace Sys2Proof.Machine

/-- Skip when the key numbered by `Vx` is down (`want = true`) or up (`want = false`); a number above 15 raises `KeyIndex`
(R180, R181, R186, D13). -/
def skipOnKey (want : Bool) (x : Nibble) (s : State) : Host.Outcome State Fault Refusal :=
  match keyOperand (getV s x) with
  | .error c => finish s (.error c)
  | .ok k => skipIf (keyDown s k == want) s

/-- `SKP Vx` (R180). -/
def execSkp (x : Nibble) (s : State) : Host.Outcome State Fault Refusal := skipOnKey true x s

/-- `SKNP Vx` (R181). -/
def execSknp (x : Nibble) (s : State) : Host.Outcome State Fault Refusal := skipOnKey false x s

/-- `LD Vx, DT` (R182): the step itself does not decrement the timer (R106). -/
def execLdVxDt (x : Nibble) (s : State) : Host.Outcome State Fault Refusal := .next (setV s x s.dt)

/-- `LD Vx, K` (R185): the lowest-numbered pressed key (D14), or `PC` back to this instruction when none is pressed. -/
def execLdVxK (x : Nibble) (s : State) : Host.Outcome State Fault Refusal :=
  match lowestKey s with
  | some k => .next (setV s x (BitVec.ofNat 8 k))
  | none => .next (rewindPC s)

/-- `LD DT, Vx` (R183). -/
def execLdDtVx (x : Nibble) (s : State) : Host.Outcome State Fault Refusal := .next { s with dt := getV s x }

/-- `LD ST, Vx` (R184): `sound` says whether the timer is nonzero after the update. -/
def execLdStVx (x : Nibble) (s : State) : Host.Outcome State Fault Refusal :=
  .next { s with st := getV s x, sound := getV s x != 0 }

end Sys2Proof.Machine
end

