-- ==== Sys2Proof/Machine/LoadAlu.lean ====
section
/-! DEFINITION. Register load, add immediate, copy and the ALU family 8 (spec/43_load_alu.md). None of them touches memory, the
stack, `I`, the timers, the framebuffer or the step flags, and none can fault. -/

namespace Sys2Proof.Machine

/-- `LD Vx, kk` (R140). -/
def execLdImm (x : Nibble) (kk : Byte) (s : State) : Host.Outcome State Fault Refusal := .next (setV s x kk)

/-- `ADD Vx, kk` (R141): wraps, `VF` is not written as a flag. -/
def execAddImm (x : Nibble) (kk : Byte) (s : State) : Host.Outcome State Fault Refusal :=
  .next (setV s x (getV s x + kk))

/-- `LD Vx, Vy` (R142). -/
def execLdReg (x y : Nibble) (s : State) : Host.Outcome State Fault Refusal := .next (setV s x (getV s y))

/-- `OR Vx, Vy` (R143): `VF` is not written as a flag (D7). -/
def execOrReg (x y : Nibble) (s : State) : Host.Outcome State Fault Refusal :=
  .next (setV s x (getV s x ||| getV s y))

/-- `AND Vx, Vy` (R144): `VF` is not written as a flag (D7). -/
def execAndReg (x y : Nibble) (s : State) : Host.Outcome State Fault Refusal :=
  .next (setV s x (getV s x &&& getV s y))

/-- `XOR Vx, Vy` (R145): `VF` is not written as a flag (D7). -/
def execXorReg (x y : Nibble) (s : State) : Host.Outcome State Fault Refusal :=
  .next (setV s x (getV s x ^^^ getV s y))

/-- `ADD Vx, Vy` (R146): flag = carry. -/
def execAddReg (x y : Nibble) (s : State) : Host.Outcome State Fault Refusal :=
  .next (setResultAndFlag s x (getV s x + getV s y) (carryOf (getV s x) (getV s y)))

/-- `SUB Vx, Vy` (R147): Vx - Vy, flag = no borrow. -/
def execSubReg (x y : Nibble) (s : State) : Host.Outcome State Fault Refusal :=
  .next (setResultAndFlag s x (getV s x - getV s y) (noBorrow (getV s x) (getV s y)))

/-- `SHR Vx` (R148): Vx in place, logical; `y` is ignored (D8); flag = the bit shifted out. -/
def execShr (x : Nibble) (s : State) : Host.Outcome State Fault Refusal :=
  .next (setResultAndFlag s x (getV s x >>> 1) (shiftedOutRight (getV s x)))

/-- `SUBN Vx, Vy` (R149): Vy - Vx, flag = no borrow in that difference. -/
def execSubnReg (x y : Nibble) (s : State) : Host.Outcome State Fault Refusal :=
  .next (setResultAndFlag s x (getV s y - getV s x) (noBorrow (getV s y) (getV s x)))

/-- `SHL Vx` (R150): Vx in place; `y` is ignored (D8); flag = the bit shifted out. -/
def execShl (x : Nibble) (s : State) : Host.Outcome State Fault Refusal :=
  .next (setResultAndFlag s x (getV s x <<< 1) (shiftedOutLeft (getV s x)))

end Sys2Proof.Machine
end

