-- ==== Sys2Proof/Machine/Step.lean ====
section
/-! DEFINITION. `Step()` (spec/40_step_cycle.md R100): enabled only when the core runs; flags cleared, fetch, `PC` advanced, decode,
execute; and the host's placing of one instruction where the next step fetches. -/

namespace Sys2Proof.Machine

/-- One step of the core (R100). The checks come in the order of R229: fetch bounds, illegal word, the instruction's own. -/
def step (s : State) : Host.Outcome State Fault Refusal :=
  match s.status with
  | .faulted c => .fault (.stepNotEnabled c)
  | .running =>
    match fetchInstr s with
    | .error c => .next (raise c s)
    | .ok i => exec i (beginStep s)

/-- `s` with the instruction whose bits are `w` stored at `PC` and `PC + 1`, where the next step fetches it: high byte first.
Nothing else changes; a `PC` whose two bytes are not both in memory is left as it is, since no instruction can be fetched
there (R102). It stands for the load of a program by `Init` (log 6). -/
def State.withFetchWord (s : State) (nbits w : Nat) : State :=
  match writeBytes s.mem s.pc.toNat (tableWordBytes nbits w) with
  | .ok m => { s with mem := m }
  | .error _ => s

end Sys2Proof.Machine
end

