-- ==== Sys2Proof/Machine/Driver.lean ====
section
/-! DEFINITION. The operations of the driver on the core (spec/48_host_operations.md; `Init` in spec/70_reset_and_hazards.md), and a
schedule of operations in the one total order R6 and R206 give them. -/

namespace Sys2Proof.Machine

/-! ### Init (R250 to R254) -/

/-- `mem[a], mem[a+1], ... <- bytes`, with no check: the copy loop of `Init`, whose range is checked before it (R250). -/
def Memory.load (m : Memory) (a : Nat) : List Byte → Memory
  | [] => m
  | b :: bs => Memory.load (m.put a b) (a + 1) bs

/-- `Init(rom)` on the core `s` (R250): a wholly fresh state with the ROM at 0x200 (R252, R254), or, when the ROM is longer than
3584 bytes, a core faulted with `ConfigError` and no other defined state (R222, R251). Only the model's own draw counter
carries over, so that a new run's free values are fresh ones (log 1). -/
def initCore (rom : List Byte) (s : State) : State :=
  if Config.romMax < rom.length then raise (.configError rom.length) s
  else { State.reset with mem := Memory.load State.reset.mem Config.progBase rom, draws := s.draws }

/-! ### The writes (R200, R201) -/

/-- A timer one tick later: never below zero (R200). -/
def tickDown (t : Byte) : Byte := if t = 0 then 0 else t - 1

/-- `TickTimers()` (R200): both timers, nothing else (D18). On a faulted core, where R200 calls it immaterial whether it may be
invoked, it acts all the same (DESIGN CHOICE, log 14). -/
def tickTimers (s : State) : State := { s with dt := tickDown s.dt, st := tickDown s.st }

/-- `WriteKeypad(k)` (R201): the whole vector, nothing else; on a faulted core too (DESIGN CHOICE, log 14). -/
def writeKeypad (k : Vector Bool 16) (s : State) : State := { s with keys := k }

/-! ### The reads (R202 to R205) -/

/-- `ReadFramebuffer()` (R202): the 2048 pixels, row-major, index y * 64 + x (D24). -/
def readFramebuffer (s : State) : List Bool := s.fb.toList.flatMap (·.toList)

/-- `beep` (R32, R203): a level, `ST != 0`. -/
def beep (s : State) : Bool := s.st != 0

/-- What `Snapshot()` shows (R204): not the stack entries, memory, framebuffer, keypad or step flags. -/
structure SnapshotView where
  v : Vector Byte 16
  pc : Word
  sp : Byte
  i : Word
  dt : Byte
  st : Byte
  deriving DecidableEq, Repr

/-- `Snapshot()` (R204). -/
def snapshot (s : State) : SnapshotView := ⟨s.v, s.pc, s.sp, s.i, s.dt, s.st⟩

/-- `DumpMemory()` (R205): the 4096 bytes in ascending address order. -/
def dumpMemory (s : State) : List Byte := (List.range Config.memSize).map s.mem.get

/-! ### Schedules (R206) -/

/-- One operation of the interface (R7). -/
inductive DriverOp where
  | init (rom : List Byte)
  | step
  | tickTimers
  | writeKeypad (k : Vector Bool 16)
  | readFramebuffer
  | snapshot
  | dumpMemory
  deriving DecidableEq, Repr

/-- Perform one operation: the reads change nothing (R202, R204, R205). On a faulted core the spec enables the reads (R230) and a new
`Init` (R231) and no `Step` (R100); it leaves open whether a tick or a keypad write may be performed there, and the model performs
both on the free values the fault left (DESIGN CHOICE, unsafe; log 14). -/
def perform (op : DriverOp) (s : State) : Host.Outcome State Fault Refusal :=
  match op with
  | .init rom => .next (initCore rom s)
  | .step => step s
  | .tickTimers => .next (tickTimers s)
  | .writeKeypad k => .next (writeKeypad k s)
  | .readFramebuffer => .next s
  | .snapshot => .next s
  | .dumpMemory => .next s

/-- Perform a schedule: any finite sequence of operations, in the driver's order (R206, D21). -/
def performAll : List DriverOp → State → Host.Outcome State Fault Refusal
  | [], s => .next s
  | op :: ops, s =>
    match perform op s with
    | .next t => performAll ops t
    | .fault r => .fault r
    | .refused r => .refused r

end Sys2Proof.Machine
end

