-- ==== Sys2Proof/Safety.lean ====
section
/-! DEFINITION. The terms claims are stated in: a legal state, what an instruction may write and raise, a safe schedule, and what a
sprite puts on the screen, each read from the spec's own tables. -/

namespace Sys2Proof.Machine

/-! ### Legal states -/

/-- The legal values of a running core (R36): `I` in 0..0xFFF (R22), `PC` in 0..0x10FE (R23), `SP` in 0..16 (R24), and every return
address on the stack in 2..0x1000 (R121). -/
structure State.RegistersLegal (s : State) : Prop where
  i_le : s.i.toNat ≤ 0xFFF
  pc_le : s.pc.toNat ≤ 0x10FE
  sp_le : s.sp.toNat ≤ 16
  stack_mem : ∀ (j : Nat) (h : j < 16), j < s.sp.toNat → 2 ≤ s.stack[j].toNat ∧ s.stack[j].toNat ≤ 0x1000

/-- A legal state: memory in its canonical form, and, while the core runs, legal registers. Nothing is asked of the registers of
a faulted core (R230). -/
structure State.Legal (s : State) : Prop where
  mem_wf : Memory.wf s.mem = true
  registers : s.status = .running → s.RegistersLegal

/-! ### What an instruction may write (R20 to R31, R36, R65) -/

/-- The instruction may write the general register `r` (R21; the destinations of files 43 to 47). -/
def writesV (i : Instr) (r : Nibble) : Bool :=
  match i with
  | .ldImm x _ => r == x
  | .addImm x _ => r == x
  | .ldReg x _ => r == x
  | .orReg x _ => r == x
  | .andReg x _ => r == x
  | .xorReg x _ => r == x
  | .addReg x _ => r == x || r == vf
  | .subReg x _ => r == x || r == vf
  | .shr x _ => r == x || r == vf
  | .subnReg x _ => r == x || r == vf
  | .shl x _ => r == x || r == vf
  | .rnd x _ => r == x
  | .drw _ _ _ => r == vf
  | .ldVxDt x => r == x
  | .ldVxK x => r == x
  | .loadRegs x => decide (r.toNat ≤ x.toNat)
  | .cls => false
  | .ret => false
  | .jp _ => false
  | .call _ => false
  | .seImm _ _ => false
  | .sneImm _ _ => false
  | .seReg _ _ => false
  | .sneReg _ _ => false
  | .ldI _ => false
  | .jpV0 _ => false
  | .skp _ => false
  | .sknp _ => false
  | .ldDtVx _ => false
  | .ldStVx _ => false
  | .addI _ => false
  | .ldF _ => false
  | .ldB _ => false
  | .storeRegs _ => false

/-- The instruction stores to memory (R65: `LD B, Vx` and `LD [I], Vx` only). -/
def storesMemory (i : Instr) : Prop := (∃ x, i = .ldB x) ∨ ∃ x, i = .storeRegs x

/-- The instruction changes the framebuffer (R29: clear-screen and sprite-draw only). -/
def changesScreen (i : Instr) : Prop := i = .cls ∨ ∃ x y n, i = .drw x y n

/-- The instruction writes `I` (R22). -/
def writesI (i : Instr) : Prop := (∃ nnn, i = .ldI nnn) ∨ (∃ x, i = .addI x) ∨ ∃ x, i = .ldF x

/-- The instruction uses the call stack (R24, R25). -/
def usesStack (i : Instr) : Prop := i = .ret ∨ ∃ nnn, i = .call nnn

/-- The causes an instruction may raise (R229: no instruction can raise two different ones). -/
def mayRaise (i : Instr) (c : Cause) : Prop :=
  match i with
  | .call _ => c = .stackOverflow
  | .ret => c = .stackUnderflow
  | .skp _ => ∃ k, c = .keyIndex k
  | .sknp _ => ∃ k, c = .keyIndex k
  | .drw _ _ _ => ∃ a, c = .memoryBounds a
  | .ldB _ => ∃ a, c = .memoryBounds a
  | .storeRegs _ => ∃ a, c = .memoryBounds a
  | .loadRegs _ => ∃ a, c = .memoryBounds a
  | .cls => False
  | .jp _ => False
  | .seImm _ _ => False
  | .sneImm _ _ => False
  | .seReg _ _ => False
  | .sneReg _ _ => False
  | .ldImm _ _ => False
  | .addImm _ _ => False
  | .ldReg _ _ => False
  | .orReg _ _ => False
  | .andReg _ _ => False
  | .xorReg _ _ => False
  | .addReg _ _ => False
  | .subReg _ _ => False
  | .shr _ _ => False
  | .subnReg _ _ => False
  | .shl _ _ => False
  | .ldI _ => False
  | .jpV0 _ => False
  | .rnd _ _ => False
  | .ldVxDt _ => False
  | .ldVxK _ => False
  | .ldDtVx _ => False
  | .ldStVx _ => False
  | .addI _ => False
  | .ldF _ => False

/-- The condition of a conditional skip in the state it runs in (R130 to R133, R180, R181): `none` for an instruction that is no
skip, and for a keypad skip whose register holds no key number (R186). -/
def skipCondition (i : Instr) (s : State) : Option Bool :=
  match i with
  | .seImm x kk => some (decide (getV s x = kk))
  | .sneImm x kk => some (decide (getV s x ≠ kk))
  | .seReg x y => some (decide (getV s x = getV s y))
  | .sneReg x y => some (decide (getV s x ≠ getV s y))
  | .skp x => if (getV s x).toNat ≤ 15 then some (keyDown s ((getV s x).setWidth 4)) else none
  | .sknp x => if (getV s x).toNat ≤ 15 then some (!keyDown s ((getV s x).setWidth 4)) else none
  | .cls => none
  | .ret => none
  | .jp _ => none
  | .call _ => none
  | .ldImm _ _ => none
  | .addImm _ _ => none
  | .ldReg _ _ => none
  | .orReg _ _ => none
  | .andReg _ _ => none
  | .xorReg _ _ => none
  | .addReg _ _ => none
  | .subReg _ _ => none
  | .shr _ _ => none
  | .subnReg _ _ => none
  | .shl _ _ => none
  | .ldI _ => none
  | .jpV0 _ => none
  | .rnd _ _ => none
  | .drw _ _ _ => none
  | .ldVxDt _ => none
  | .ldVxK _ => none
  | .ldDtVx _ => none
  | .ldStVx _ => none
  | .addI _ => none
  | .ldF _ => none
  | .ldB _ => none
  | .storeRegs _ => none
  | .loadRegs _ => none

/-! ### Sprites (R170 to R172) -/

/-- The column of a pixel inside a sprite whose left edge is at `vx`, counted with wraparound (R172). -/
def spriteCol (vx px : Nat) : Nat := (px + 64 - vx % 64) % 64

/-- The row of a pixel inside a sprite whose top edge is at `vy`, counted with wraparound (R172). -/
def spriteRow (vy py : Nat) : Nat := (py + 32 - vy % 32) % 32

/-- The bit the sprite of `n` rows at address `a`, drawn with its left edge at `vx` and top edge at `vy`, puts on pixel
`(px, py)`: the bit of the pixel's own column and row inside the sprite, bit 7 leftmost (R170, R171). -/
def spriteBit (m : Memory) (a n vx vy px py : Nat) : Bool :=
  decide (spriteRow vy py < n) && decide (spriteCol vx px < 8) &&
    (m.get (a + spriteRow vy py)).getLsbD (7 - spriteCol vx px)

/-! ### Schedules (R206) -/

/-- A safe schedule from `s`: every operation answers a next state and the core is running after each (R33, R231). -/
def SafeSchedule : List DriverOp → State → Prop
  | [], s => s.status = .running
  | op :: ops, s => s.status = .running ∧ ∃ t, perform op s = .next t ∧ SafeSchedule ops t

/-- A schedule along which the delay timer is not loaded: no `Init`, and no step that executes `LD DT, Vx` (R26, R183). -/
def NoDelayLoad : List DriverOp → State → Prop
  | [], _ => True
  | op :: ops, s =>
    (∀ rom, op ≠ .init rom) ∧ (op = .step → ∀ x, fetchInstr s ≠ .ok (.ldDtVx x)) ∧
      ∀ t, perform op s = .next t → NoDelayLoad ops t

/-- How many ticks a schedule holds. -/
def tickCount (ops : List DriverOp) : Nat := ops.count .tickTimers

end Sys2Proof.Machine
end

