-- ==== Sys2Proof/Certificates/Slice0/Obligations.lean ====
section
/-! DEFINITION. The statements for the provers, each from the numbered rules of spec/. A statement that rests on one of the spec's own
decisions (D<n>) or inferences names it. What an instruction does is stated of the decoded instruction; the encoding its rule gives with it
rests on D3 and is stated apart, under Encoding. -/

open Sys2Proof Sys2Proof.Machine Host

/-! ### Encoding -/

/-- 30_encoding.md sections 1, 2 and 4: decoding the bytes of an instruction gives it back, whatever bytes follow. Rests on the spec's
opcode assignment, D3 (log 7). -/
def Obligations.DecodeInvertsEncode : Prop :=
  ∀ (i : Instr) (rest : List Byte), decode (encodeBytes i ++ rest) = .ok (i, rest)

/-- 30_encoding.md sections 1 and 4: each legal word has one meaning, and no bit of it is dropped (the ignored `y` of the shifts
included). Rests on D3 (log 7). -/
def Obligations.EncodeInvertsDecode : Prop :=
  ∀ (op : Word) (i : Instr), decodeWord op = .ok i → encode i = op

/-- 30_encoding.md sections 4 and 5: the decoder gives a word the instruction of the row it selects, and refuses by name exactly the
words that select none. Rests on D3, D4 and D5 (log 7). -/
def Obligations.DecodeFollowsTheOpcodeMap : Prop :=
  ∀ op : Word,
    (∃ r ∈ opcodeMap, op &&& r.mask = r.pattern ∧ ∃ i, decodeWord op = .ok i ∧ i.mnemonic = r.mnemonic) ∨
    ((∀ r ∈ opcodeMap, op &&& r.mask ≠ r.pattern) ∧ decodeWord op = .error (.illegal op))

/-- 30_encoding.md, the four literals the source gives, and 95_test_vectors.md section 2.1. -/
def Obligations.SpecWordsDecode : Prop :=
  decode [0x00, 0xE0] = .ok (.cls, []) ∧ decode [0x61, 0x05] = .ok (.ldImm 1 0x05, []) ∧
  decode [0x62, 0x03] = .ok (.ldImm 2 0x03, []) ∧ decode [0x81, 0x24] = .ok (.addReg 1 2, []) ∧
  decode [0x8A, 0xB6] = .ok (.shr 10 11, []) ∧ decode [0xD1, 0x2F] = .ok (.drw 1 2 15, []) ∧
  decode [0xFE, 0x65] = .ok (.loadRegs 14, []) ∧ decode [0x51, 0x21] = .error (.illegal 0x5121)

/-! ### The step -/

/-- R55, R102: the fetch is big-endian at `PC` and `PC + 1`; it raises `MemoryBounds(PC)` when `PC > 0xFFF` and
`MemoryBounds(0x1000)` when `PC = 0xFFF`. -/
def Obligations.FetchIsBigEndianAndBounded : Prop :=
  ∀ s : State,
    (s.pc.toNat ≤ 0xFFE → ∃ op, fetchWord s = .ok op ∧
      op.toNat = (s.mem.get s.pc.toNat).toNat * 256 + (s.mem.get (s.pc.toNat + 1)).toNat) ∧
    (s.pc.toNat = 0xFFF → fetchWord s = .error (.memoryBounds 0x1000)) ∧
    (0xFFF < s.pc.toNat → fetchWord s = .error (.memoryBounds s.pc.toNat))

/-- 40_step_cycle.md sections 2, 4 and 6: when the two bytes at `PC` decode to `i`, the step is `exec i` on
the state with both step flags cleared and `PC` advanced by 2. -/
def Obligations.StepRunsTheDecodedInstruction : Prop :=
  ∀ (s : State) (i : Instr), s.status = .running → s.pc.toNat ≤ 0xFFE →
    decode [s.mem.get s.pc.toNat, s.mem.get (s.pc.toNat + 1)] = .ok (i, []) →
    step s = exec i { s with redraw := false, sound := false, pc := s.pc + 2 }

/-- 60_exceptions.md sections 1 and 3: a step whose fetch leaves memory latches `MemoryBounds` with the first address above 0xFFF; one
whose word matches no row of the map latches `IllegalInstruction` with the word and its fetch address. Rests on D3 to D5 and D19
(logs 7, 13). -/
def Obligations.FetchAndDecodeFaults : Prop :=
  ∀ s : State, s.status = .running →
    (0xFFE < s.pc.toNat →
      ∃ t, step s = .next t ∧ t.status = .faulted (.memoryBounds (max s.pc.toNat 0x1000))) ∧
    (∀ op : Word, s.pc.toNat ≤ 0xFFE →
      op.toNat = (s.mem.get s.pc.toNat).toNat * 256 + (s.mem.get (s.pc.toNat + 1)).toNat →
      (∀ r ∈ opcodeMap, op &&& r.mask ≠ r.pattern) →
      ∃ t, step s = .next t ∧ t.status = .faulted (.illegalInstruction op s.pc))

/-- 40_step_cycle.md sections 1 and 6: from a legal running state a step always answers a next state: no instruction, however rare, is
refused, and every fault the spec describes is taken. -/
def Obligations.ARunningCoreAlwaysSteps : Prop :=
  ∀ s : State, s.Legal → s.status = .running → ∃ t, step s = .next t

/-- 60_exceptions.md section 5: `Faulted` is absorbing. `Step` is not enabled, and no operation but a new `Init` clears the status.
The latch is D19, the repeated `Init` D25 (log 13). -/
def Obligations.OnlyInitLeavesAFault : Prop :=
  ∀ (s : State) (c : Cause), s.status = .faulted c →
    step s = .fault (.stepNotEnabled c) ∧
    (∀ (op : DriverOp) (t : State), perform op s = .next t → t.status ≠ .faulted c → ∃ rom, op = .init rom) ∧
    (∀ rom : List Byte, rom.length ≤ 3584 → ∃ t, perform (.init rom) s = .next t ∧ t.status = .running)

/-- 60_exceptions.md section 3: an instruction raises only its own causes; the causes of all others are none. Rests on D13 and D19
(logs 11, 13). -/
def Obligations.EachInstructionRaisesOnlyItsCauses : Prop :=
  ∀ (i : Instr) (s t : State) (c : Cause), s.status = .running → exec i s = .next t → t.status = .faulted c →
    mayRaise i c

/-! ### Invariants -/

/-- The reset state is legal (10_state.md section 9, memory canonical), and it is what `Init` of the empty ROM leaves, so that what
is said of `Init` is said of it (log 6). -/
def Obligations.ResetIsLegal : Prop := State.reset.Legal ∧ initCore [] State.reset = State.reset

/-- Every step from a legal state ends in a legal state, so no register of a running core leaves the range 10_state.md section 9
gives it, and memory keeps its canonical form. -/
def Obligations.StepKeepsLegal : Prop :=
  ∀ s t : State, s.Legal → step s = .next t → t.Legal

/-- Every schedule of operations, of whatever length and order (48_host_operations.md section 5), keeps the state legal. -/
def Obligations.EveryScheduleKeepsLegal : Prop :=
  ∀ (ops : List DriverOp) (s t : State), s.Legal → performAll ops s = .next t → t.Legal

/-- The canonical form is one: two well-formed memories with the same 4096 bytes are the same data. -/
def Obligations.CanonicalMemoryIsUnique : Prop :=
  ∀ m m' : Memory, m.wf = true → m'.wf = true → (∀ a < 4096, m.get a = m'.get a) → m = m'

/-- R53: a write above 0xFFF raises `MemoryBounds`; any other write sets that byte and no other. -/
def Obligations.WriteSetsOneByte : Prop :=
  ∀ (m : Memory) (addr : Nat) (b : Byte), m.wf = true →
    (0xFFF < addr → writeByte m addr b = .error (.memoryBounds addr)) ∧
    (addr ≤ 0xFFF → ∃ m', writeByte m addr b = .ok m' ∧ m'.wf = true ∧
      ∀ a, m'.get a = if a = addr then b else m.get a)

/-! ### Reset -/

/-- 70_reset_and_hazards.md section 1: every register, timer, key and pixel after `Init` of a legal ROM. The stack entries and step
flags rest on D24 and D18 (log 12). -/
def Obligations.InitResetsEveryRegister : Prop :=
  ∀ (rom : List Byte) (s : State), rom.length ≤ 3584 →
    let t := initCore rom s
    (∀ r, getV t r = 0) ∧ t.i = 0 ∧ t.pc = 0x200 ∧ t.sp = 0 ∧ (∀ (j : Nat) (h : j < 16), t.stack[j] = 0) ∧
    t.dt = 0 ∧ t.st = 0 ∧ beep t = false ∧ (∀ k, keyDown t k = false) ∧ (∀ x y, getPixel t.fb x y = false) ∧
    t.redraw = false ∧ t.sound = false ∧ t.status = .running

/-- R252: the memory image after `Init`: the font at `FONT_BASE`, the ROM at 0x200, zero everywhere else, the two regions apart;
and `PC` = 0x200. -/
def Obligations.InitMemoryImage : Prop :=
  ∀ (rom : List Byte) (s : State), rom.length ≤ 3584 →
    Config.fontBase + 80 ≤ 0x200 ∧
    (∀ (j : Nat) (h : j < rom.length), (initCore rom s).mem.get (0x200 + j) = rom[j]) ∧
    (∀ j : Fin 80, (initCore rom s).mem.get (Config.fontBase + j.val) = Config.fontTable j) ∧
    (∀ a, (a < Config.fontBase ∨ Config.fontBase + 80 ≤ a) → (a < 0x200 ∨ 0x200 + rom.length ≤ a) →
      (initCore rom s).mem.get a = 0) ∧
    (initCore rom s).pc = 0x200

/-- 70_reset_and_hazards.md section 1: the first fetch after `Init` reads the bytes at 0x200 and 0x201: the first two ROM bytes, and
zero where the ROM has none. -/
def Obligations.FirstFetchReadsTheRom : Prop :=
  ∀ (rom : List Byte) (s : State), rom.length ≤ 3584 →
    (initCore rom s).pc = 0x200 ∧
    fetchWord (initCore rom s) = .ok (wordOfBytes (rom.getD 0 0) (rom.getD 1 0))

/-- R222: a ROM of more than 3584 bytes: `Faulted(ConfigError, L)` from the start, and no step is ever taken. -/
def Obligations.InitRejectsALongRom : Prop :=
  ∀ (rom : List Byte) (s : State), 3584 < rom.length →
    (initCore rom s).status = .faulted (.configError rom.length) ∧
    step (initCore rom s) = .fault (.stepNotEnabled (.configError rom.length))

/-! ### Flow -/

/-- 41_flow.md, `CLS`: every pixel off, nothing else changed: `redraw` rests on D17 (log 12). -/
def Obligations.ClsClearsTheScreen : Prop :=
  ∀ s : State, ∃ t, exec .cls s = .next t ∧ (∀ x y, getPixel t.fb x y = false) ∧ t = { s with fb := t.fb }

/-- 41_flow.md, `RET`: it raises `StackUnderflow` when `SP = 0`; with 1 to 16 entries it decrements `SP` and jumps to the entry
popped, changing nothing else (the pop order is D12, log 10). -/
def Obligations.RetPopsOrUnderflows : Prop :=
  ∀ s : State,
    (s.sp.toNat = 0 → ∃ t, exec .ret s = .next t ∧ t.status = .faulted .stackUnderflow) ∧
    (∀ (j : Nat) (h : j < 16), s.sp.toNat = j + 1 →
      ∃ t, exec .ret s = .next t ∧ t.sp.toNat = j ∧ t.pc = s.stack[j] ∧ t = { s with sp := t.sp, pc := t.pc })

/-- 41_flow.md, `JP nnn`: it sets `PC` to `nnn` and changes nothing else. -/
def Obligations.JpSetsPC : Prop :=
  ∀ (s : State) (nnn : Addr12), ∃ t, exec (.jp nnn) s = .next t ∧ t.pc.toNat = nnn.toNat ∧ t = { s with pc := t.pc }

/-- 41_flow.md, `CALL`: with fewer than 16 entries it stores the advanced `PC` at `stack[SP]`, increments `SP`, jumps, and changes
nothing else (the push order is D12, log 10). -/
def Obligations.CallPushesAndJumps : Prop :=
  ∀ (s : State) (nnn : Addr12) (h : s.sp.toNat < 16),
    ∃ t, exec (.call nnn) s = .next t ∧ t.pc.toNat = nnn.toNat ∧ t.sp.toNat = s.sp.toNat + 1 ∧
      t.stack[s.sp.toNat] = s.pc ∧ (∀ (j : Nat) (h' : j < 16), j ≠ s.sp.toNat → t.stack[j] = s.stack[j]) ∧
      t = { s with pc := t.pc, sp := t.sp, stack := t.stack }

/-- R225: `CALL` when `SP = 16` on entry raises `StackOverflow`. -/
def Obligations.CallOverflowsAtSixteen : Prop :=
  ∀ (s : State) (nnn : Addr12), s.sp.toNat = 16 →
    ∃ t, exec (.call nnn) s = .next t ∧ t.status = .faulted .stackOverflow

/-- 40_step_cycle.md section 8 (b): a call and then at once a return restore `PC` to the address after the call and leave `SP` as it
was, in two steps of the machine. -/
def Obligations.CallThenReturnRoundTrip : Prop :=
  ∀ (s : State) (nnn : Addr12), s.status = .running → s.sp.toNat < 16 → fetchInstr s = .ok (.call nnn) →
    fetchInstr { s with pc := nnn.setWidth 16 } = .ok .ret →
    ∃ t u, step s = .next t ∧ step t = .next u ∧ u.pc = s.pc + 2 ∧ u.sp = s.sp ∧ u.v = s.v ∧ u.mem = s.mem

/-! ### Skips -/

/-- 42_skips.md: `SE` and `SNE` against an immediate move only `PC`, by 2 more when the condition holds. -/
def Obligations.SkipsOnAnImmediate : Prop :=
  ∀ (s : State) (x : Nibble) (kk : Byte),
    exec (.seImm x kk) s = .next { s with pc := if getV s x = kk then s.pc + 2 else s.pc } ∧
    exec (.sneImm x kk) s = .next { s with pc := if getV s x ≠ kk then s.pc + 2 else s.pc }

/-- 42_skips.md: `SE` and `SNE` between registers move only `PC`, by 2 more when the condition holds. -/
def Obligations.SkipsOnARegister : Prop :=
  ∀ (s : State) (x y : Nibble),
    exec (.seReg x y) s = .next { s with pc := if getV s x = getV s y then s.pc + 2 else s.pc } ∧
    exec (.sneReg x y) s = .next { s with pc := if getV s x ≠ getV s y then s.pc + 2 else s.pc }

/-- 40_step_cycle.md section 8 (a): a conditional skip advances `PC` by 4 in all when its condition holds and by 2 when it fails, over
one whole step, for the four register skips and, with a key number up to 15, the two keypad skips (above 15 they fault: D13, log 11).
Nothing else changes but the cleared step flags. -/
def Obligations.TakenSkipAdvancesByFour : Prop :=
  ∀ (s : State) (i : Instr) (c : Bool), s.status = .running → fetchInstr s = .ok i → skipCondition i s = some c →
    ∃ t, step s = .next t ∧ t.pc.toNat = s.pc.toNat + (if c then 4 else 2) ∧
      t = { s with redraw := false, sound := false, pc := t.pc }

/-! ### Load and ALU -/

/-- 43_load_alu.md section 2: a load or copy sets `V[x]` and changes nothing else. -/
def Obligations.LoadsAndCopiesSetOneRegister : Prop :=
  ∀ (s : State) (x y : Nibble) (kk : Byte),
    (∃ t, exec (.ldImm x kk) s = .next t ∧ (∀ r, getV t r = if r = x then kk else getV s r) ∧ t = { s with v := t.v }) ∧
    (∃ t, exec (.ldReg x y) s = .next t ∧ (∀ r, getV t r = if r = x then getV s y else getV s r) ∧ t = { s with v := t.v })

/-- 43_load_alu.md section 2: `ADD Vx, kk` adds mod 256 and writes no other register, `VF` included. -/
def Obligations.AddImmediateWraps : Prop :=
  ∀ (s : State) (x : Nibble) (kk : Byte),
    ∃ t, exec (.addImm x kk) s = .next t ∧ (getV t x).toNat = ((getV s x).toNat + kk.toNat) % 256 ∧
      (∀ r, r ≠ x → getV t r = getV s r) ∧ t = { s with v := t.v }

/-- 43_load_alu.md section 3: OR, AND, XOR bit by bit into `V[x]`; that `VF` is not written as a flag is D7 (log 8). -/
def Obligations.LogicIsBitwise : Prop :=
  ∀ (s : State) (x y : Nibble),
    (∃ t, exec (.orReg x y) s = .next t ∧
      (∀ k, (getV t x).getLsbD k = ((getV s x).getLsbD k || (getV s y).getLsbD k)) ∧
      (∀ r, r ≠ x → getV t r = getV s r) ∧ t = { s with v := t.v }) ∧
    (∃ t, exec (.andReg x y) s = .next t ∧
      (∀ k, (getV t x).getLsbD k = ((getV s x).getLsbD k && (getV s y).getLsbD k)) ∧
      (∀ r, r ≠ x → getV t r = getV s r) ∧ t = { s with v := t.v }) ∧
    (∃ t, exec (.xorReg x y) s = .next t ∧
      (∀ k, (getV t x).getLsbD k = ((getV s x).getLsbD k ^^ (getV s y).getLsbD k)) ∧
      (∀ r, r ≠ x → getV t r = getV s r) ∧ t = { s with v := t.v })

/-- 43_load_alu.md section 4, `ADD Vx, Vy`: the sum mod 256 in `V[x]` unless x = 15, the carry in `VF` always (flag last: D6, log 8),
no other register. -/
def Obligations.AddSetsSumAndCarry : Prop :=
  ∀ (s : State) (x y : Nibble),
    ∃ t, exec (.addReg x y) s = .next t ∧
      (x ≠ 15 → (getV t x).toNat = ((getV s x).toNat + (getV s y).toNat) % 256) ∧
      (getV t 15).toNat = (if 256 ≤ (getV s x).toNat + (getV s y).toNat then 1 else 0) ∧
      (∀ r, r ≠ x → r ≠ 15 → getV t r = getV s r) ∧ t = { s with v := t.v }

/-- 43_load_alu.md section 4, `SUB` and `SUBN`: each difference mod 256 in `V[x]` unless x = 15, and `VF` = 1 exactly when its own
minuend is at least its own subtrahend (flag last: D6, log 8). -/
def Obligations.SubtractionsSetNoBorrow : Prop :=
  ∀ (s : State) (x y : Nibble),
    (∃ t, exec (.subReg x y) s = .next t ∧
      (x ≠ 15 → (getV t x).toNat = ((getV s x).toNat + 256 - (getV s y).toNat) % 256) ∧
      (getV t 15).toNat = (if (getV s y).toNat ≤ (getV s x).toNat then 1 else 0) ∧
      (∀ r, r ≠ x → r ≠ 15 → getV t r = getV s r) ∧ t = { s with v := t.v }) ∧
    (∃ t, exec (.subnReg x y) s = .next t ∧
      (x ≠ 15 → (getV t x).toNat = ((getV s y).toNat + 256 - (getV s x).toNat) % 256) ∧
      (getV t 15).toNat = (if (getV s x).toNat ≤ (getV s y).toNat then 1 else 0) ∧
      (∀ r, r ≠ x → r ≠ 15 → getV t r = getV s r) ∧ t = { s with v := t.v })

/-- 43_load_alu.md section 5, `SHR` and `SHL`: halving and doubling of `V[x]` in place, whatever `y` is (D8, log 8), unless x = 15, and
the bit shifted out in `VF` (flag last: D6, log 8). -/
def Obligations.ShiftsCaptureTheBitShiftedOut : Prop :=
  ∀ (s : State) (x y : Nibble),
    (∃ t, exec (.shr x y) s = .next t ∧
      (x ≠ 15 → (getV t x).toNat = (getV s x).toNat / 2) ∧ (getV t 15).toNat = (getV s x).toNat % 2 ∧
      (∀ r, r ≠ x → r ≠ 15 → getV t r = getV s r) ∧ t = { s with v := t.v }) ∧
    (∃ t, exec (.shl x y) s = .next t ∧
      (x ≠ 15 → (getV t x).toNat = 2 * (getV s x).toNat % 256) ∧ (getV t 15).toNat = (getV s x).toNat / 128 ∧
      (∀ r, r ≠ x → r ≠ 15 → getV t r = getV s r) ∧ t = { s with v := t.v })

/-! ### Index, jump, random -/

/-- 44_index_jump_random.md, `LD I, nnn`: it sets `I` to `nnn`, zero-extended, and changes nothing else. -/
def Obligations.LdISetsTheAddressRegister : Prop :=
  ∀ (s : State) (nnn : Addr12), ∃ t, exec (.ldI nnn) s = .next t ∧ t.i.toNat = nnn.toNat ∧ t = { s with i := t.i }

/-- 44_index_jump_random.md, `JP V0, nnn`: `PC` becomes the exact sum `nnn + V0`, never reduced, and nothing else changes. The base
`nnn` and the absence of a wrap are D10 (log 9). -/
def Obligations.IndexedJumpAddsV0 : Prop :=
  ∀ (s : State) (nnn : Addr12),
    ∃ t, exec (.jpV0 nnn) s = .next t ∧ t.pc.toNat = nnn.toNat + (getV s 0).toNat ∧ t = { s with pc := t.pc }

/-- 44_index_jump_random.md, `RND`: the free byte of this draw AND kk: a bit that is 0 in kk is 0 in the result, which is at most kk;
no other register changes and one draw is spent. It holds for every value of the free byte (D15; log 1). -/
def Obligations.RndIsMaskedByTheImmediate : Prop :=
  ∀ (s : State) (x : Nibble) (kk : Byte),
    ∃ t, exec (.rnd x kk) s = .next t ∧ (getV t x).toNat ≤ kk.toNat ∧
      (∀ k, (getV t x).getLsbD k = ((Config.randomByte s.draws).getLsbD k && kk.getLsbD k)) ∧
      (∀ r, r ≠ x → getV t r = getV s r) ∧ t = { s with v := t.v, draws := s.draws + 1 }

/-! ### Draw -/

/-- 45_draw.md: when its n bytes lie in memory, `DRW` XORs the sprite onto the screen, each pixel wrapped on its own, sets `VF` to 1
exactly when a set pixel was turned off, requests a redraw always, and changes nothing else. The bit order is D16 (log 9). -/
def Obligations.DrawXorsTheSprite : Prop :=
  ∀ (s : State) (x y n : Nibble), (n.toNat = 0 ∨ s.i.toNat + n.toNat ≤ 4096) →
    ∃ t, exec (.drw x y n) s = .next t ∧
      (∀ px py, px < 64 → py < 32 → getPixel t.fb px py =
        (getPixel s.fb px py ^^ spriteBit s.mem s.i.toNat n.toNat (getV s x).toNat (getV s y).toNat px py)) ∧
      ((∃ px py, px < 64 ∧ py < 32 ∧ getPixel s.fb px py = true ∧
          spriteBit s.mem s.i.toNat n.toNat (getV s x).toNat (getV s y).toNat px py = true) → getV t 15 = 1) ∧
      ((∀ px py, px < 64 → py < 32 → getPixel s.fb px py = true →
          spriteBit s.mem s.i.toNat n.toNat (getV s x).toNat (getV s y).toNat px py = false) → getV t 15 = 0) ∧
      (∀ r, r ≠ 15 → getV t r = getV s r) ∧ t = { s with v := t.v, fb := t.fb, redraw := true }

/-- 45_draw.md, the source's property: drawing the same sprite twice at the same place restores the screen; on a clear screen the
first draw has no collision, and the second has one exactly when the sprite has a bit set. With x or y = 15 the first draw moves the
place, so the coordinates are in other registers. -/
def Obligations.DrawingTwiceRestoresTheScreen : Prop :=
  ∀ (s : State) (x y n : Nibble), x ≠ 15 → y ≠ 15 → (n.toNat = 0 ∨ s.i.toNat + n.toNat ≤ 4096) →
    ∃ t u, exec (.drw x y n) s = .next t ∧ exec (.drw x y n) t = .next u ∧ u.fb = s.fb ∧
      (s.fb = blankScreen → getV t 15 = 0 ∧
        ((∃ row < n.toNat, s.mem.get (s.i.toNat + row) ≠ 0) → getV u 15 = 1) ∧
        ((∀ row < n.toNat, s.mem.get (s.i.toNat + row) = 0) → getV u 15 = 0))

/-! ### Keypad and timers -/

/-- 46_keypad_timers.md sections 1 and 2: with a key number up to 15, `SKP` skips when the key is down and `SKNP` when it is up, moving
only `PC`; above 15 both raise `KeyIndex` (D13, log 11). -/
def Obligations.KeypadSkips : Prop :=
  ∀ (s : State) (x : Nibble),
    (∀ k : Nibble, (getV s x).toNat = k.toNat →
      exec (.skp x) s = .next { s with pc := if keyDown s k = true then s.pc + 2 else s.pc } ∧
      exec (.sknp x) s = .next { s with pc := if keyDown s k = false then s.pc + 2 else s.pc }) ∧
    (15 < (getV s x).toNat →
      (∃ t, exec (.skp x) s = .next t ∧ t.status = .faulted (.keyIndex (getV s x))) ∧
      (∃ t, exec (.sknp x) s = .next t ∧ t.status = .faulted (.keyIndex (getV s x))))

/-- 46_keypad_timers.md section 3: the timer moves. `LD ST, Vx` sets `sound` exactly when the value written is nonzero, and the
level `beep` follows at once. -/
def Obligations.TimerLoads : Prop :=
  ∀ (s : State) (x : Nibble),
    (∃ t, exec (.ldVxDt x) s = .next t ∧ (∀ r, getV t r = if r = x then s.dt else getV s r) ∧ t = { s with v := t.v }) ∧
    exec (.ldDtVx x) s = .next { s with dt := getV s x } ∧
    (∃ t, exec (.ldStVx x) s = .next t ∧ t.st = getV s x ∧ (t.sound = true ↔ getV s x ≠ 0) ∧
      (beep t = true ↔ getV s x ≠ 0) ∧ t = { s with st := t.st, sound := t.sound })

/-- 46_keypad_timers.md section 4: with some key down `LD Vx, K` stores the number of the lowest (D14, log 11) and goes on; with
none it moves `PC` back by 2 and changes nothing else. -/
def Obligations.KeyWaitTakesTheLowestKey : Prop :=
  ∀ (s : State) (x : Nibble),
    (∀ k : Nibble, keyDown s k = true → (∀ j : Nibble, j.toNat < k.toNat → keyDown s j = false) →
      ∃ t, exec (.ldVxK x) s = .next t ∧ (∀ r, getV t r = if r = x then k.setWidth 8 else getV s r) ∧
        t = { s with v := t.v }) ∧
    ((∀ k : Nibble, keyDown s k = false) → exec (.ldVxK x) s = .next { s with pc := s.pc - 2 })

/-- 46_keypad_timers.md section 4 (c): while waiting, a step leaves the whole state as it is but for the cleared step flags. -/
def Obligations.WaitingStepChangesNothing : Prop :=
  ∀ (s : State) (x : Nibble), s.status = .running → fetchInstr s = .ok (.ldVxK x) → (∀ k : Nibble, keyDown s k = false) →
    step s = .next { s with redraw := false, sound := false }

/-! ### Index and memory -/

/-- 47_index_memory.md, `ADD I, Vx`: it wraps at 12 bits and writes nothing but `I`. -/
def Obligations.AddIWrapsAtTwelveBits : Prop :=
  ∀ (s : State) (x : Nibble),
    ∃ t, exec (.addI x) s = .next t ∧ t.i.toNat = (s.i.toNat + (getV s x).toNat) % 4096 ∧ t = { s with i := t.i }

/-- 47_index_memory.md, `LD F, Vx`: it sets `I` to the glyph of the low nibble, inside the reserved region, and changes nothing
else. It holds for every `FONT_BASE` the spec allows. -/
def Obligations.LdFPointsAtTheGlyph : Prop :=
  ∀ (s : State) (x : Nibble),
    ∃ t, exec (.ldF x) s = .next t ∧ t.i.toNat = Config.fontBase + 5 * ((getV s x).toNat % 16) ∧ t.i.toNat ≤ 0x1FB ∧
      t = { s with i := t.i }

/-- 47_index_memory.md, `LD B, Vx`: with `I` up to 0xFFD it stores the hundreds, tens and ones digits at `I`, `I + 1`, `I + 2` and
no other byte, and changes nothing but memory; above that it raises `MemoryBounds` at the first of the three addresses that exceeds
0xFFF. -/
def Obligations.BcdStoresThreeDigits : Prop :=
  ∀ (s : State) (x : Nibble), s.mem.wf = true →
    (s.i.toNat ≤ 0xFFD → ∃ t, exec (.ldB x) s = .next t ∧
      (t.mem.get s.i.toNat).toNat = (getV s x).toNat / 100 ∧
      (t.mem.get (s.i.toNat + 1)).toNat = (getV s x).toNat / 10 % 10 ∧
      (t.mem.get (s.i.toNat + 2)).toNat = (getV s x).toNat % 10 ∧
      (∀ a, (a < s.i.toNat ∨ s.i.toNat + 3 ≤ a) → t.mem.get a = s.mem.get a) ∧ t = { s with mem := t.mem }) ∧
    (0xFFD < s.i.toNat → ∃ t, exec (.ldB x) s = .next t ∧ t.status = .faulted (.memoryBounds (max s.i.toNat 0x1000)))

/-- 47_index_memory.md, `LD [I], Vx`: when `I + x` lies in memory, `V0 .. Vx` are stored at `I .. I + x` and no other byte changes; `I`
and the registers stay (D9, log 9). -/
def Obligations.BulkStoreCopiesRegisters : Prop :=
  ∀ (s : State) (x : Nibble), s.mem.wf = true → s.i.toNat + x.toNat ≤ 0xFFF →
    ∃ t, exec (.storeRegs x) s = .next t ∧
      (∀ r : Nibble, r.toNat ≤ x.toNat → t.mem.get (s.i.toNat + r.toNat) = getV s r) ∧
      (∀ a, (a < s.i.toNat ∨ s.i.toNat + x.toNat < a) → t.mem.get a = s.mem.get a) ∧ t = { s with mem := t.mem }

/-- 47_index_memory.md, `LD Vx, [I]`: when `I + x` lies in memory, `V0 .. Vx` are loaded from `I .. I + x`; the registers above x, `I`
and memory stay (D9, log 9). -/
def Obligations.BulkLoadCopiesMemory : Prop :=
  ∀ (s : State) (x : Nibble), s.i.toNat + x.toNat ≤ 0xFFF →
    ∃ t, exec (.loadRegs x) s = .next t ∧
      (∀ r : Nibble, getV t r = if r.toNat ≤ x.toNat then s.mem.get (s.i.toNat + r.toNat) else getV s r) ∧
      t = { s with v := t.v }

/-- A bulk store and then a bulk load of the same registers give back every register as it was stored, and keep all others
(47_index_memory.md; `I` unchanged between them is D9, log 9). -/
def Obligations.BulkStoreThenLoadIsIdentity : Prop :=
  ∀ (s : State) (x : Nibble), s.mem.wf = true → s.i.toNat + x.toNat ≤ 0xFFF →
    ∃ t u, exec (.storeRegs x) s = .next t ∧ exec (.loadRegs x) t = .next u ∧ u.v = s.v

/-- 60_exceptions.md section 1: `DRW`, `LD [I], Vx` and `LD Vx, [I]` whose last byte lies beyond memory latch `MemoryBounds` with the
first address above 0xFFF (checked at each access: D11, log 13). -/
def Obligations.DataAccessBeyondMemoryFaults : Prop :=
  ∀ s : State,
    (∀ x y n : Nibble, 1 ≤ n.toNat → 0xFFF < s.i.toNat + n.toNat - 1 →
      ∃ t, exec (.drw x y n) s = .next t ∧ t.status = .faulted (.memoryBounds (max s.i.toNat 0x1000))) ∧
    (∀ x : Nibble, 0xFFF < s.i.toNat + x.toNat →
      (∃ t, exec (.storeRegs x) s = .next t ∧ t.status = .faulted (.memoryBounds (max s.i.toNat 0x1000))) ∧
      (∃ t, exec (.loadRegs x) s = .next t ∧ t.status = .faulted (.memoryBounds (max s.i.toNat 0x1000))))

/-! ### Whole-machine frames, over all instructions -/

/-- 10_state.md sections 1 and 2: an instruction that ends running changes no general register but its destination and, for the six
flag-writing ones, `VF` (which those are: D7, log 8). -/
def Obligations.RegisterFrame : Prop :=
  ∀ (i : Instr) (s t : State) (r : Nibble), exec i s = .next t → t.status = .running → writesV i r = false →
    getV t r = getV s r

/-- 20_memory.md section 9: no instruction but `LD B, Vx` and `LD [I], Vx` changes a byte of memory, and those two change none outside
the bytes they store. -/
def Obligations.MemoryFrame : Prop :=
  ∀ (i : Instr) (s t : State) (a : Nat), exec i s = .next t → t.status = .running →
    (¬storesMemory i → t.mem.get a = s.mem.get a) ∧
    (∀ x, i = .ldB x → s.mem.wf = true → (a < s.i.toNat ∨ s.i.toNat + 3 ≤ a) → t.mem.get a = s.mem.get a) ∧
    (∀ x, i = .storeRegs x → s.mem.wf = true → (a < s.i.toNat ∨ s.i.toNat + x.toNat < a) → t.mem.get a = s.mem.get a)

/-- 10_state.md section 7: the framebuffer is mutated only by the clear-screen and sprite-draw instructions. -/
def Obligations.ScreenFrame : Prop :=
  ∀ (i : Instr) (s t : State), exec i s = .next t → t.status = .running → ¬changesScreen i → t.fb = s.fb

/-- 10_state.md sections 3, 5, 6, 7 and 9: who writes the other state. `I`: Annn, Fx1E, Fx29; `SP` and the stack: `CALL`, `RET`;
`DT`: Fx15; `ST`: Fx18; the keypad: no instruction; the draw counter of the model: `RND`. -/
def Obligations.SpecialStateFrame : Prop :=
  ∀ (i : Instr) (s t : State), exec i s = .next t → t.status = .running →
    (¬writesI i → t.i = s.i) ∧ (¬usesStack i → t.sp = s.sp ∧ t.stack = s.stack) ∧
    ((∀ x, i ≠ .ldDtVx x) → t.dt = s.dt) ∧ ((∀ x, i ≠ .ldStVx x) → t.st = s.st) ∧ t.keys = s.keys ∧
    ((∀ x kk, i ≠ .rnd x kk) → t.draws = s.draws) ∧ t.status = s.status

/-- 40_step_cycle.md section 2: after a step, `redraw` is true exactly when the instruction was `DRW` and `sound` exactly when it was
`LD ST, Vx` with `Vx` nonzero. That `CLS` does not set `redraw` is D17 (log 12). -/
def Obligations.StepFlagsSayWhatRan : Prop :=
  ∀ (i : Instr) (s t : State), s.status = .running → fetchInstr s = .ok i → step s = .next t → t.status = .running →
    (t.redraw = true ↔ ∃ x y n, i = .drw x y n) ∧ (t.sound = true ↔ ∃ x, i = .ldStVx x ∧ getV s x ≠ 0)

/-! ### The driver's operations -/

/-- 48_host_operations.md section 1: a tick takes 1 from each timer that is not 0, each on its own, and changes nothing else; `beep`
falls in the tick that takes `ST` to 0. That the step flags stay is D18 (log 12); that a tick acts on a
faulted core too is the model's choice (log 14). -/
def Obligations.TickDecrementsBothTimers : Prop :=
  ∀ s : State,
    (tickTimers s).dt.toNat = s.dt.toNat - 1 ∧ (tickTimers s).st.toNat = s.st.toNat - 1 ∧
    (beep (tickTimers s) = true ↔ 2 ≤ s.st.toNat) ∧
    tickTimers s = { s with dt := (tickTimers s).dt, st := (tickTimers s).st }

/-- 48_host_operations.md section 1, the source's property: along any safe schedule that does not load the delay timer, however many
steps, keypad writes and reads fall between, the timer has lost exactly one for each tick and never goes below 0. -/
def Obligations.DelayTimerCountsTicksOnly : Prop :=
  ∀ (ops : List DriverOp) (s t : State), SafeSchedule ops s → NoDelayLoad ops s → performAll ops s = .next t →
    t.dt.toNat = s.dt.toNat - tickCount ops

/-- 48_host_operations.md section 2: `WriteKeypad` writes all sixteen keys and nothing else. That it does so on a faulted core too is
the model's choice (log 14). -/
def Obligations.WriteKeypadSetsEveryKey : Prop :=
  ∀ (s : State) (k : Vector Bool 16),
    (∀ j : Nibble, keyDown (writeKeypad k s) j = k[j.toNat]'j.isLt) ∧ writeKeypad k s = { s with keys := k }

/-- R205: `DumpMemory` returns the 4096 bytes of memory in ascending address order and changes nothing. -/
def Obligations.DumpMemoryReturnsEveryByte : Prop :=
  ∀ s : State, (dumpMemory s).length = 4096 ∧ (∀ (a : Nat), a < 4096 → (dumpMemory s)[a]? = some (s.mem.get a)) ∧
    perform .dumpMemory s = .next s

/-- 48_host_operations.md section 3: `ReadFramebuffer` returns the 2048 pixels, row-major (D24, log 12), and changes nothing. -/
def Obligations.ReadFramebufferIsRowMajor : Prop :=
  ∀ s : State, (readFramebuffer s).length = 2048 ∧
    (∀ x y : Nat, x < 64 → y < 32 → (readFramebuffer s)[y * 64 + x]? = some (getPixel s.fb x y)) ∧
    perform .readFramebuffer s = .next s
end

