-- ==== Sys2Proof/Laws/Decode.lean ====
section
/-! SUPPORT. The fields of each format read back what the format was built from, and the fixed bits of each format under the masks
of the opcode map. -/

namespace Sys2Proof

/-! ### Bits of the formats (R82) -/

theorem getLsbD_formatA (f : Nibble) (nnn : Addr12) (k : Nat) :
    (formatA f nnn).getLsbD k = if k < 12 then nnn.getLsbD k else f.getLsbD (k - 12) := BitVec.getLsbD_append

theorem getLsbD_formatXK (f x : Nibble) (kk : Byte) (k : Nat) :
    (formatXK f x kk).getLsbD k =
      if k < 8 then kk.getLsbD k else if k < 12 then x.getLsbD (k - 8) else f.getLsbD (k - 12) := by
  refine (BitVec.getLsbD_append (x := f ++ x) (y := kk)).trans ?_
  rw [BitVec.getLsbD_append]
  split_ifs <;> first | rfl | omega

theorem getLsbD_formatXYN (f x y n : Nibble) (k : Nat) :
    (formatXYN f x y n).getLsbD k =
      if k < 4 then n.getLsbD k else if k < 8 then y.getLsbD (k - 4)
      else if k < 12 then x.getLsbD (k - 8) else f.getLsbD (k - 12) := by
  refine (BitVec.getLsbD_append (x := f ++ x ++ y) (y := n)).trans ?_
  rw [BitVec.getLsbD_append, BitVec.getLsbD_append]
  split_ifs <;> first | rfl | omega

/-! ### Fields of the formats (R81) -/

section Fields

variable (f x y n : Nibble) (kk : Byte) (nnn : Addr12)

@[simp] theorem fieldF_formatA : fieldF (formatA f nnn) = f := by
  ext k hk; simp [fieldF, getLsbD_formatA, hk]

@[simp] theorem fieldNNN_formatA : fieldNNN (formatA f nnn) = nnn := by
  ext k hk; simp [fieldNNN, getLsbD_formatA, hk]

@[simp] theorem fieldF_formatXK : fieldF (formatXK f x kk) = f := by
  ext k hk; simp [fieldF, getLsbD_formatXK, hk, show ¬12 + k < 8 by omega]

@[simp] theorem fieldX_formatXK : fieldX (formatXK f x kk) = x := by
  ext k hk; simp [fieldX, getLsbD_formatXK, hk, show 8 + k < 12 by omega]

@[simp] theorem fieldKK_formatXK : fieldKK (formatXK f x kk) = kk := by
  ext k hk; simp [fieldKK, getLsbD_formatXK, hk]

@[simp] theorem fieldF_formatXYN : fieldF (formatXYN f x y n) = f := by
  ext k hk; simp [fieldF, getLsbD_formatXYN, hk, show ¬12 + k < 4 by omega, show ¬12 + k < 8 by omega]

@[simp] theorem fieldX_formatXYN : fieldX (formatXYN f x y n) = x := by
  ext k hk; simp [fieldX, getLsbD_formatXYN, hk, show 8 + k < 12 by omega, show ¬8 + k < 4 by omega]

@[simp] theorem fieldY_formatXYN : fieldY (formatXYN f x y n) = y := by
  ext k hk; simp [fieldY, getLsbD_formatXYN, hk, show 4 + k < 8 by omega]

@[simp] theorem fieldN_formatXYN : fieldN (formatXYN f x y n) = n := by
  ext k hk; simp [fieldN, getLsbD_formatXYN, hk]

end Fields

/-! ### The formats under the masks of the map (R86) -/

theorem formatA_and_family (f : Nibble) (nnn : Addr12) : formatA f nnn &&& 0xF000 = formatA f 0 := by
  ext k hk
  interval_cases k <;> simp [← BitVec.getLsbD_eq_getElem, getLsbD_formatA]

theorem formatXK_and_family (f x : Nibble) (kk : Byte) : formatXK f x kk &&& 0xF000 = formatXK f 0 0 := by
  ext k hk
  interval_cases k <;> simp [← BitVec.getLsbD_eq_getElem, getLsbD_formatXK]

theorem formatXK_and_selector (f x : Nibble) (kk : Byte) : formatXK f x kk &&& 0xF0FF = formatXK f 0 kk := by
  ext k hk
  interval_cases k <;> simp [← BitVec.getLsbD_eq_getElem, getLsbD_formatXK]

theorem formatXYN_and_family (f x y n : Nibble) : formatXYN f x y n &&& 0xF000 = formatXYN f 0 0 0 := by
  ext k hk
  interval_cases k <;> simp [← BitVec.getLsbD_eq_getElem, getLsbD_formatXYN]

theorem formatXYN_and_selector (f x y n : Nibble) : formatXYN f x y n &&& 0xF00F = formatXYN f 0 0 n := by
  ext k hk
  interval_cases k <;> simp [← BitVec.getLsbD_eq_getElem, getLsbD_formatXYN]

/-- The two bytes of a word make that word again (R55). -/
@[simp] theorem wordOfBytes_bytesOfWord (w : Word) :
    wordOfBytes (w.extractLsb' 8 8) (w.extractLsb' 0 8) = w := by
  ext k hk
  rw [wordOfBytes, ← BitVec.getLsbD_eq_getElem, BitVec.getLsbD_append]
  by_cases h : k < 8
  · simp [h, BitVec.getLsbD_eq_getElem hk]
  · simp [h, show k - 8 < 8 by omega, show 8 + (k - 8) = k by omega, BitVec.getLsbD_eq_getElem hk]

/-- The word of two bytes as a number: big-endian (R102). -/
theorem wordOfBytes_toNat (hi lo : Byte) : (wordOfBytes hi lo).toNat = hi.toNat * 256 + lo.toNat := by
  have := lo.isLt
  refine (BitVec.toNat_append hi lo).trans ?_
  rw [Nat.shiftLeft_eq, ← Nat.shiftLeft_eq, ← Nat.shiftLeft_add_eq_or_of_lt this, Nat.shiftLeft_eq]

end Sys2Proof
end

