-- ==== Sys2Proof/Laws/State.lean ====
section
/-! SUPPORT. One lemma per field per named update of the state, so that no proof unfolds a record update. -/

namespace Sys2Proof.Machine

variable (s : State)

/-! ### `setV` -/
@[simp] theorem setV_v (r : Nibble) (b : Byte) : (setV s r b).v = s.v.set r.toNat b r.isLt := rfl
@[simp] theorem setV_i (r : Nibble) (b : Byte) : (setV s r b).i = s.i := rfl
@[simp] theorem setV_pc (r : Nibble) (b : Byte) : (setV s r b).pc = s.pc := rfl
@[simp] theorem setV_sp (r : Nibble) (b : Byte) : (setV s r b).sp = s.sp := rfl
@[simp] theorem setV_stack (r : Nibble) (b : Byte) : (setV s r b).stack = s.stack := rfl
@[simp] theorem setV_dt (r : Nibble) (b : Byte) : (setV s r b).dt = s.dt := rfl
@[simp] theorem setV_st (r : Nibble) (b : Byte) : (setV s r b).st = s.st := rfl
@[simp] theorem setV_mem (r : Nibble) (b : Byte) : (setV s r b).mem = s.mem := rfl
@[simp] theorem setV_fb (r : Nibble) (b : Byte) : (setV s r b).fb = s.fb := rfl
@[simp] theorem setV_keys (r : Nibble) (b : Byte) : (setV s r b).keys = s.keys := rfl
@[simp] theorem setV_redraw (r : Nibble) (b : Byte) : (setV s r b).redraw = s.redraw := rfl
@[simp] theorem setV_sound (r : Nibble) (b : Byte) : (setV s r b).sound = s.sound := rfl
@[simp] theorem setV_status (r : Nibble) (b : Byte) : (setV s r b).status = s.status := rfl
@[simp] theorem setV_draws (r : Nibble) (b : Byte) : (setV s r b).draws = s.draws := rfl

/-! ### `setResultAndFlag` -/
@[simp] theorem setResultAndFlag_v (x : Nibble) (b : Byte) (c : Bool) : (setResultAndFlag s x b c).v = (s.v.set x.toNat b x.isLt).set vf.toNat (flagByte c) vf.isLt := rfl
@[simp] theorem setResultAndFlag_i (x : Nibble) (b : Byte) (c : Bool) : (setResultAndFlag s x b c).i = s.i := rfl
@[simp] theorem setResultAndFlag_pc (x : Nibble) (b : Byte) (c : Bool) : (setResultAndFlag s x b c).pc = s.pc := rfl
@[simp] theorem setResultAndFlag_sp (x : Nibble) (b : Byte) (c : Bool) : (setResultAndFlag s x b c).sp = s.sp := rfl
@[simp] theorem setResultAndFlag_stack (x : Nibble) (b : Byte) (c : Bool) : (setResultAndFlag s x b c).stack = s.stack := rfl
@[simp] theorem setResultAndFlag_dt (x : Nibble) (b : Byte) (c : Bool) : (setResultAndFlag s x b c).dt = s.dt := rfl
@[simp] theorem setResultAndFlag_st (x : Nibble) (b : Byte) (c : Bool) : (setResultAndFlag s x b c).st = s.st := rfl
@[simp] theorem setResultAndFlag_mem (x : Nibble) (b : Byte) (c : Bool) : (setResultAndFlag s x b c).mem = s.mem := rfl
@[simp] theorem setResultAndFlag_fb (x : Nibble) (b : Byte) (c : Bool) : (setResultAndFlag s x b c).fb = s.fb := rfl
@[simp] theorem setResultAndFlag_keys (x : Nibble) (b : Byte) (c : Bool) : (setResultAndFlag s x b c).keys = s.keys := rfl
@[simp] theorem setResultAndFlag_redraw (x : Nibble) (b : Byte) (c : Bool) : (setResultAndFlag s x b c).redraw = s.redraw := rfl
@[simp] theorem setResultAndFlag_sound (x : Nibble) (b : Byte) (c : Bool) : (setResultAndFlag s x b c).sound = s.sound := rfl
@[simp] theorem setResultAndFlag_status (x : Nibble) (b : Byte) (c : Bool) : (setResultAndFlag s x b c).status = s.status := rfl
@[simp] theorem setResultAndFlag_draws (x : Nibble) (b : Byte) (c : Bool) : (setResultAndFlag s x b c).draws = s.draws := rfl

/-! ### `setPC`, `skipNext`, `rewindPC` -/
@[simp] theorem setPC_v (w : Word) : (setPC s w).v = s.v := rfl
@[simp] theorem setPC_i (w : Word) : (setPC s w).i = s.i := rfl
@[simp] theorem setPC_pc (w : Word) : (setPC s w).pc = w := rfl
@[simp] theorem setPC_sp (w : Word) : (setPC s w).sp = s.sp := rfl
@[simp] theorem setPC_stack (w : Word) : (setPC s w).stack = s.stack := rfl
@[simp] theorem setPC_dt (w : Word) : (setPC s w).dt = s.dt := rfl
@[simp] theorem setPC_st (w : Word) : (setPC s w).st = s.st := rfl
@[simp] theorem setPC_mem (w : Word) : (setPC s w).mem = s.mem := rfl
@[simp] theorem setPC_fb (w : Word) : (setPC s w).fb = s.fb := rfl
@[simp] theorem setPC_keys (w : Word) : (setPC s w).keys = s.keys := rfl
@[simp] theorem setPC_redraw (w : Word) : (setPC s w).redraw = s.redraw := rfl
@[simp] theorem setPC_sound (w : Word) : (setPC s w).sound = s.sound := rfl
@[simp] theorem setPC_status (w : Word) : (setPC s w).status = s.status := rfl
@[simp] theorem setPC_draws (w : Word) : (setPC s w).draws = s.draws := rfl
@[simp] theorem skipNext_v  : (skipNext s).v = s.v := rfl
@[simp] theorem skipNext_i  : (skipNext s).i = s.i := rfl
@[simp] theorem skipNext_pc  : (skipNext s).pc = s.pc + 2 := rfl
@[simp] theorem skipNext_sp  : (skipNext s).sp = s.sp := rfl
@[simp] theorem skipNext_stack  : (skipNext s).stack = s.stack := rfl
@[simp] theorem skipNext_dt  : (skipNext s).dt = s.dt := rfl
@[simp] theorem skipNext_st  : (skipNext s).st = s.st := rfl
@[simp] theorem skipNext_mem  : (skipNext s).mem = s.mem := rfl
@[simp] theorem skipNext_fb  : (skipNext s).fb = s.fb := rfl
@[simp] theorem skipNext_keys  : (skipNext s).keys = s.keys := rfl
@[simp] theorem skipNext_redraw  : (skipNext s).redraw = s.redraw := rfl
@[simp] theorem skipNext_sound  : (skipNext s).sound = s.sound := rfl
@[simp] theorem skipNext_status  : (skipNext s).status = s.status := rfl
@[simp] theorem skipNext_draws  : (skipNext s).draws = s.draws := rfl
@[simp] theorem rewindPC_v  : (rewindPC s).v = s.v := rfl
@[simp] theorem rewindPC_i  : (rewindPC s).i = s.i := rfl
@[simp] theorem rewindPC_pc  : (rewindPC s).pc = s.pc - 2 := rfl
@[simp] theorem rewindPC_sp  : (rewindPC s).sp = s.sp := rfl
@[simp] theorem rewindPC_stack  : (rewindPC s).stack = s.stack := rfl
@[simp] theorem rewindPC_dt  : (rewindPC s).dt = s.dt := rfl
@[simp] theorem rewindPC_st  : (rewindPC s).st = s.st := rfl
@[simp] theorem rewindPC_mem  : (rewindPC s).mem = s.mem := rfl
@[simp] theorem rewindPC_fb  : (rewindPC s).fb = s.fb := rfl
@[simp] theorem rewindPC_keys  : (rewindPC s).keys = s.keys := rfl
@[simp] theorem rewindPC_redraw  : (rewindPC s).redraw = s.redraw := rfl
@[simp] theorem rewindPC_sound  : (rewindPC s).sound = s.sound := rfl
@[simp] theorem rewindPC_status  : (rewindPC s).status = s.status := rfl
@[simp] theorem rewindPC_draws  : (rewindPC s).draws = s.draws := rfl

/-! ### `setI` -/
@[simp] theorem setI_v (w : Word) : (setI s w).v = s.v := rfl
@[simp] theorem setI_i (w : Word) : (setI s w).i = w := rfl
@[simp] theorem setI_pc (w : Word) : (setI s w).pc = s.pc := rfl
@[simp] theorem setI_sp (w : Word) : (setI s w).sp = s.sp := rfl
@[simp] theorem setI_stack (w : Word) : (setI s w).stack = s.stack := rfl
@[simp] theorem setI_dt (w : Word) : (setI s w).dt = s.dt := rfl
@[simp] theorem setI_st (w : Word) : (setI s w).st = s.st := rfl
@[simp] theorem setI_mem (w : Word) : (setI s w).mem = s.mem := rfl
@[simp] theorem setI_fb (w : Word) : (setI s w).fb = s.fb := rfl
@[simp] theorem setI_keys (w : Word) : (setI s w).keys = s.keys := rfl
@[simp] theorem setI_redraw (w : Word) : (setI s w).redraw = s.redraw := rfl
@[simp] theorem setI_sound (w : Word) : (setI s w).sound = s.sound := rfl
@[simp] theorem setI_status (w : Word) : (setI s w).status = s.status := rfl
@[simp] theorem setI_draws (w : Word) : (setI s w).draws = s.draws := rfl

/-! ### `pushEntry`, `popEntry` -/
@[simp] theorem pushEntry_v (w : Word) (h : s.sp.toNat < 16) : (pushEntry s w h).v = s.v := rfl
@[simp] theorem pushEntry_i (w : Word) (h : s.sp.toNat < 16) : (pushEntry s w h).i = s.i := rfl
@[simp] theorem pushEntry_pc (w : Word) (h : s.sp.toNat < 16) : (pushEntry s w h).pc = s.pc := rfl
@[simp] theorem pushEntry_sp (w : Word) (h : s.sp.toNat < 16) : (pushEntry s w h).sp = s.sp + 1 := rfl
@[simp] theorem pushEntry_stack (w : Word) (h : s.sp.toNat < 16) : (pushEntry s w h).stack = s.stack.set s.sp.toNat w h := rfl
@[simp] theorem pushEntry_dt (w : Word) (h : s.sp.toNat < 16) : (pushEntry s w h).dt = s.dt := rfl
@[simp] theorem pushEntry_st (w : Word) (h : s.sp.toNat < 16) : (pushEntry s w h).st = s.st := rfl
@[simp] theorem pushEntry_mem (w : Word) (h : s.sp.toNat < 16) : (pushEntry s w h).mem = s.mem := rfl
@[simp] theorem pushEntry_fb (w : Word) (h : s.sp.toNat < 16) : (pushEntry s w h).fb = s.fb := rfl
@[simp] theorem pushEntry_keys (w : Word) (h : s.sp.toNat < 16) : (pushEntry s w h).keys = s.keys := rfl
@[simp] theorem pushEntry_redraw (w : Word) (h : s.sp.toNat < 16) : (pushEntry s w h).redraw = s.redraw := rfl
@[simp] theorem pushEntry_sound (w : Word) (h : s.sp.toNat < 16) : (pushEntry s w h).sound = s.sound := rfl
@[simp] theorem pushEntry_status (w : Word) (h : s.sp.toNat < 16) : (pushEntry s w h).status = s.status := rfl
@[simp] theorem pushEntry_draws (w : Word) (h : s.sp.toNat < 16) : (pushEntry s w h).draws = s.draws := rfl
@[simp] theorem popEntry_v (h : s.sp.toNat - 1 < 16) : (popEntry s h).v = s.v := rfl
@[simp] theorem popEntry_i (h : s.sp.toNat - 1 < 16) : (popEntry s h).i = s.i := rfl
@[simp] theorem popEntry_pc (h : s.sp.toNat - 1 < 16) : (popEntry s h).pc = s.stack[s.sp.toNat - 1]'h := rfl
@[simp] theorem popEntry_sp (h : s.sp.toNat - 1 < 16) : (popEntry s h).sp = s.sp - 1 := rfl
@[simp] theorem popEntry_stack (h : s.sp.toNat - 1 < 16) : (popEntry s h).stack = s.stack := rfl
@[simp] theorem popEntry_dt (h : s.sp.toNat - 1 < 16) : (popEntry s h).dt = s.dt := rfl
@[simp] theorem popEntry_st (h : s.sp.toNat - 1 < 16) : (popEntry s h).st = s.st := rfl
@[simp] theorem popEntry_mem (h : s.sp.toNat - 1 < 16) : (popEntry s h).mem = s.mem := rfl
@[simp] theorem popEntry_fb (h : s.sp.toNat - 1 < 16) : (popEntry s h).fb = s.fb := rfl
@[simp] theorem popEntry_keys (h : s.sp.toNat - 1 < 16) : (popEntry s h).keys = s.keys := rfl
@[simp] theorem popEntry_redraw (h : s.sp.toNat - 1 < 16) : (popEntry s h).redraw = s.redraw := rfl
@[simp] theorem popEntry_sound (h : s.sp.toNat - 1 < 16) : (popEntry s h).sound = s.sound := rfl
@[simp] theorem popEntry_status (h : s.sp.toNat - 1 < 16) : (popEntry s h).status = s.status := rfl
@[simp] theorem popEntry_draws (h : s.sp.toNat - 1 < 16) : (popEntry s h).draws = s.draws := rfl

/-! ### `beginStep` -/
@[simp] theorem beginStep_v  : (beginStep s).v = s.v := rfl
@[simp] theorem beginStep_i  : (beginStep s).i = s.i := rfl
@[simp] theorem beginStep_pc  : (beginStep s).pc = s.pc + 2 := rfl
@[simp] theorem beginStep_sp  : (beginStep s).sp = s.sp := rfl
@[simp] theorem beginStep_stack  : (beginStep s).stack = s.stack := rfl
@[simp] theorem beginStep_dt  : (beginStep s).dt = s.dt := rfl
@[simp] theorem beginStep_st  : (beginStep s).st = s.st := rfl
@[simp] theorem beginStep_mem  : (beginStep s).mem = s.mem := rfl
@[simp] theorem beginStep_fb  : (beginStep s).fb = s.fb := rfl
@[simp] theorem beginStep_keys  : (beginStep s).keys = s.keys := rfl
@[simp] theorem beginStep_redraw  : (beginStep s).redraw = false := rfl
@[simp] theorem beginStep_sound  : (beginStep s).sound = false := rfl
@[simp] theorem beginStep_status  : (beginStep s).status = s.status := rfl
@[simp] theorem beginStep_draws  : (beginStep s).draws = s.draws := rfl

/-! ### `drawByte` -/
@[simp] theorem drawByte_snd_v  : ((drawByte s).2).v = s.v := rfl
@[simp] theorem drawByte_snd_i  : ((drawByte s).2).i = s.i := rfl
@[simp] theorem drawByte_snd_pc  : ((drawByte s).2).pc = s.pc := rfl
@[simp] theorem drawByte_snd_sp  : ((drawByte s).2).sp = s.sp := rfl
@[simp] theorem drawByte_snd_stack  : ((drawByte s).2).stack = s.stack := rfl
@[simp] theorem drawByte_snd_dt  : ((drawByte s).2).dt = s.dt := rfl
@[simp] theorem drawByte_snd_st  : ((drawByte s).2).st = s.st := rfl
@[simp] theorem drawByte_snd_mem  : ((drawByte s).2).mem = s.mem := rfl
@[simp] theorem drawByte_snd_fb  : ((drawByte s).2).fb = s.fb := rfl
@[simp] theorem drawByte_snd_keys  : ((drawByte s).2).keys = s.keys := rfl
@[simp] theorem drawByte_snd_redraw  : ((drawByte s).2).redraw = s.redraw := rfl
@[simp] theorem drawByte_snd_sound  : ((drawByte s).2).sound = s.sound := rfl
@[simp] theorem drawByte_snd_status  : ((drawByte s).2).status = s.status := rfl
@[simp] theorem drawByte_snd_draws  : ((drawByte s).2).draws = s.draws + 1 := rfl

/-! ### `tickTimers`, `writeKeypad` -/
@[simp] theorem tickTimers_v  : (tickTimers s).v = s.v := rfl
@[simp] theorem tickTimers_i  : (tickTimers s).i = s.i := rfl
@[simp] theorem tickTimers_pc  : (tickTimers s).pc = s.pc := rfl
@[simp] theorem tickTimers_sp  : (tickTimers s).sp = s.sp := rfl
@[simp] theorem tickTimers_stack  : (tickTimers s).stack = s.stack := rfl
@[simp] theorem tickTimers_dt  : (tickTimers s).dt = tickDown s.dt := rfl
@[simp] theorem tickTimers_st  : (tickTimers s).st = tickDown s.st := rfl
@[simp] theorem tickTimers_mem  : (tickTimers s).mem = s.mem := rfl
@[simp] theorem tickTimers_fb  : (tickTimers s).fb = s.fb := rfl
@[simp] theorem tickTimers_keys  : (tickTimers s).keys = s.keys := rfl
@[simp] theorem tickTimers_redraw  : (tickTimers s).redraw = s.redraw := rfl
@[simp] theorem tickTimers_sound  : (tickTimers s).sound = s.sound := rfl
@[simp] theorem tickTimers_status  : (tickTimers s).status = s.status := rfl
@[simp] theorem tickTimers_draws  : (tickTimers s).draws = s.draws := rfl
@[simp] theorem writeKeypad_v (k : Vector Bool 16) : (writeKeypad k s).v = s.v := rfl
@[simp] theorem writeKeypad_i (k : Vector Bool 16) : (writeKeypad k s).i = s.i := rfl
@[simp] theorem writeKeypad_pc (k : Vector Bool 16) : (writeKeypad k s).pc = s.pc := rfl
@[simp] theorem writeKeypad_sp (k : Vector Bool 16) : (writeKeypad k s).sp = s.sp := rfl
@[simp] theorem writeKeypad_stack (k : Vector Bool 16) : (writeKeypad k s).stack = s.stack := rfl
@[simp] theorem writeKeypad_dt (k : Vector Bool 16) : (writeKeypad k s).dt = s.dt := rfl
@[simp] theorem writeKeypad_st (k : Vector Bool 16) : (writeKeypad k s).st = s.st := rfl
@[simp] theorem writeKeypad_mem (k : Vector Bool 16) : (writeKeypad k s).mem = s.mem := rfl
@[simp] theorem writeKeypad_fb (k : Vector Bool 16) : (writeKeypad k s).fb = s.fb := rfl
@[simp] theorem writeKeypad_keys (k : Vector Bool 16) : (writeKeypad k s).keys = k := rfl
@[simp] theorem writeKeypad_redraw (k : Vector Bool 16) : (writeKeypad k s).redraw = s.redraw := rfl
@[simp] theorem writeKeypad_sound (k : Vector Bool 16) : (writeKeypad k s).sound = s.sound := rfl
@[simp] theorem writeKeypad_status (k : Vector Bool 16) : (writeKeypad k s).status = s.status := rfl
@[simp] theorem writeKeypad_draws (k : Vector Bool 16) : (writeKeypad k s).draws = s.draws := rfl

/-! ### `raise`: only the status and the draw counter are known (R230) -/
@[simp] theorem raise_status (c : Cause) : (raise c s).status = .faulted c := rfl
@[simp] theorem raise_draws (c : Cause) : (raise c s).draws = s.draws + 1 := rfl
@[simp] theorem raise_mem (c : Cause) : (raise c s).mem = Memory.ofFn (Config.faultedMem s.draws) := by rw [raise]

end Sys2Proof.Machine
end

