-- ==== Sys2Proof/Laws/Screen.lean ====
section
/-! SUPPORT. Pixels: reading after writing, wraparound, and what one sprite bit does. -/

namespace Sys2Proof.Machine

/-- A coordinate pair addresses the pixel of its remainders (R29). -/
theorem getPixel_mod (fb : FrameBuffer) (px py : Nat) : getPixel fb (px % 64) (py % 32) = getPixel fb px py := by
  simp only [getPixel, Nat.mod_mod]

/-- Reading after writing a pixel: that pixel, every other as before. -/
theorem getPixel_setPixel (fb : FrameBuffer) (px py qx qy : Nat) (b : Bool) :
    getPixel (setPixel fb px py b) qx qy =
      if qx % 64 = px % 64 ∧ qy % 32 = py % 32 then b else getPixel fb qx qy := by
  simp only [getPixel, setPixel, Vector.getElem_set]
  by_cases hy : py % 32 = qy % 32
  · by_cases hx : px % 64 = qx % 64
    · simp [hx, hy]
    · simp [hy, hx, Ne.symm hx]
  · simp [hy, Ne.symm hy]

@[simp] theorem getPixel_blankScreen (px py : Nat) : getPixel blankScreen px py = false := by
  simp [getPixel, blankScreen]

/-- Two screens with the same 2048 pixels are the same screen. -/
theorem screen_ext {fb fb' : FrameBuffer}
    (h : ∀ px py, px < 64 → py < 32 → getPixel fb px py = getPixel fb' px py) : fb = fb' := by
  apply Vector.ext
  intro py hy
  apply Vector.ext
  intro px hx
  have := h px py hx hy
  simpa only [getPixel, Nat.mod_eq_of_lt hx, Nat.mod_eq_of_lt hy] using this

/-- One sprite bit XORs its own pixel (R170). -/
theorem getPixel_drawBit (d : Drawing) (px py qx qy : Nat) (bit : Bool) :
    getPixel (drawBit d px py bit).1 qx qy =
      (getPixel d.1 qx qy ^^ (bit && decide (qx % 64 = px % 64 ∧ qy % 32 = py % 32))) := by
  cases bit with
  | false => simp [drawBit]
  | true =>
    simp only [drawBit, if_true, getPixel_setPixel, Bool.true_and]
    split
    · rename_i h
      rw [← getPixel_mod d.1 px py, ← getPixel_mod d.1 qx qy, h.1, h.2]
      simp
    · simp [*]

/-- One sprite bit records a collision when it turns a set pixel off (R170). -/
theorem drawBit_hit (d : Drawing) (px py : Nat) (bit : Bool) :
    (drawBit d px py bit).2 = (d.2 || (bit && getPixel d.1 px py)) := by
  cases bit <;> simp [drawBit]

end Sys2Proof.Machine
end

