-- ==== Sys2Proof/Laws/Draw.lean ====
section
/-! SUPPORT. What drawing one row and several rows does to each pixel, and when it collides. -/

namespace Sys2Proof.Machine

/-- The pixel `c` columns right of the left edge is in column `c`. -/
theorem spriteCol_at (vx c : Nat) (h : c < 64) : spriteCol vx ((vx + c) % 64) = c := by unfold spriteCol; omega

/-- The pixel `j` rows below the top edge is in row `j`. -/
theorem spriteRow_at (vy j : Nat) (h : j < 32) : spriteRow vy ((vy + j) % 32) = j := by unfold spriteRow; omega

/-- A pixel is `spriteCol` columns right of the left edge. -/
theorem add_spriteCol (vx px : Nat) (h : px < 64) : (vx + spriteCol vx px) % 64 = px := by unfold spriteCol; omega

/-- A pixel is `spriteRow` rows below the top edge. -/
theorem add_spriteRow (vy py : Nat) (h : py < 32) : (vy + spriteRow vy py) % 32 = py := by unfold spriteRow; omega

/-- One bit of column `c` as the sprite's columns see it: it XORs the pixel whose column is `c` on that screen row. -/
theorem getPixel_drawBit_col (d : Drawing) {vx py px c : Nat} (qy : Nat) (bit : Bool) (hx : px < 64) (hc : c < 64) :
    getPixel (drawBit d (vx + c) py bit).1 px qy =
      (getPixel d.1 px qy ^^ (decide (qy % 32 = py % 32) && (decide (spriteCol vx px = c) && bit))) := by
  rw [getPixel_drawBit]
  have h : (px % 64 = (vx + c) % 64) ↔ spriteCol vx px = c := by unfold spriteCol; omega
  simp only [h, Bool.decide_and]
  cases bit <;> simp [Bool.and_comm]

/-- One sprite row XORs its eight pixels and no other (R170, R171). -/
theorem getPixel_drawRow (d : Drawing) (vx py px qy : Nat) (b : Byte) (hx : px < 64) :
    getPixel (drawRow vx py b d).1 px qy =
      (getPixel d.1 px qy ^^ (decide (qy % 32 = py % 32) &&
        (decide (spriteCol vx px < 8) && b.getLsbD (7 - spriteCol vx px)))) := by
  simp only [drawRow, drawCols]
  iterate 8 rw [getPixel_drawBit_col _ _ _ hx (by decide)]
  by_cases hy : qy % 32 = py % 32
  · simp only [hy, decide_true, Bool.true_and]
    by_cases hc : spriteCol vx px < 8
    · simp only [hc, decide_true, Bool.true_and]
      generalize spriteCol vx px = c at hc
      interval_cases c <;> simp
    · simp only [hc, decide_false, Bool.false_and, Bool.xor_false]
      simp [show ∀ c, c < 8 → spriteCol vx px ≠ c by omega]
  · simp [hy]

/-- A bit of one column leaves the pixels of the other columns of its row as they were. -/
theorem getPixel_drawBit_other (d : Drawing) {vx py c c' : Nat} (qy : Nat) (bit : Bool) (hc : c < 64) (hc' : c' < 64)
    (h : c' ≠ c) : getPixel (drawBit d (vx + c) py bit).1 (vx + c') qy = getPixel d.1 (vx + c') qy := by
  rw [getPixel_drawBit, decide_eq_false (by omega)]
  simp

/-- One sprite row collides when one of its set bits lies on a set pixel (R170). -/
theorem drawRow_hit (d : Drawing) (vx py : Nat) (b : Byte) :
    (drawRow vx py b d).2 = true ↔
      d.2 = true ∨ ∃ c < 8, b.getLsbD (7 - c) = true ∧ getPixel d.1 (vx + c) py = true := by
  have h : (drawRow vx py b d).2 =
      (d.2 || [0, 1, 2, 3, 4, 5, 6, 7].any fun c => b.getLsbD (7 - c) && getPixel d.1 (vx + c) py) := by
    simp only [drawRow, drawCols, drawBit_hit]
    repeat rw [getPixel_drawBit_other _ _ _ (by decide) (by decide) (by decide)]
    simp [Bool.or_assoc]
  rw [h, Bool.or_eq_true, List.any_eq_true]
  refine or_congr_right ⟨?_, ?_⟩
  · rintro ⟨c, hc, hb⟩
    exact ⟨c, by simp at hc; omega, by simpa using hb⟩
  · rintro ⟨c, hc, hb⟩
    exact ⟨c, by simp; omega, by simpa using hb⟩

/-- Up to 32 sprite rows XOR each pixel by the bit of its own row and column (R170, R172). -/
theorem getPixel_drawRows (vx px qy : Nat) (hx : px < 64) (hy : qy < 32) :
    ∀ (bs : List Byte) (vy : Nat) (d : Drawing), bs.length ≤ 32 →
      getPixel (drawRows vx vy d bs).1 px qy =
        (getPixel d.1 px qy ^^ (decide (spriteRow vy qy < bs.length) && (decide (spriteCol vx px < 8) &&
          (bs.getD (spriteRow vy qy) 0).getLsbD (7 - spriteCol vx px))))
  | [], _, d, _ => by simp [drawRows]
  | b :: bs, vy, d, hl => by
    have hl' : bs.length + 1 ≤ 32 := by simpa using hl
    rw [drawRows, getPixel_drawRows vx px qy hx hy bs (vy + 1) _ (by omega), getPixel_drawRow _ _ _ _ _ _ hx,
      Nat.mod_eq_of_lt hy]
    by_cases h : qy = vy % 32
    · have h0 : spriteRow vy qy = 0 := by unfold spriteRow; omega
      have h1 : ¬spriteRow (vy + 1) qy < bs.length := by unfold spriteRow; omega
      rw [h0, decide_eq_false h1, decide_eq_true h]
      simp
    · have h0 : spriteRow vy qy = spriteRow (vy + 1) qy + 1 := by unfold spriteRow; omega
      simp [h, h0]

/-- Up to 32 sprite rows collide when one of their set bits lies on a set pixel: no two bits of one draw share a pixel. -/
theorem drawRows_hit (vx : Nat) :
    ∀ (bs : List Byte) (vy : Nat) (d : Drawing), bs.length ≤ 32 →
      ((drawRows vx vy d bs).2 = true ↔
        d.2 = true ∨ ∃ j < bs.length, ∃ c < 8, (bs.getD j 0).getLsbD (7 - c) = true ∧
          getPixel d.1 (vx + c) (vy + j) = true)
  | [], _, d, _ => by simp [drawRows]
  | b :: bs, vy, d, hl => by
    have hl' : bs.length + 1 ≤ 32 := by simpa using hl
    rw [drawRows, drawRows_hit vx bs (vy + 1) _ (by omega), drawRow_hit, or_assoc]
    have hrow : ∀ j, j < bs.length → ∀ px, getPixel (drawRow vx vy b d).1 px (vy + 1 + j) = getPixel d.1 px (vy + 1 + j) := by
      intro j hj px
      rw [← getPixel_mod, getPixel_drawRow _ _ _ _ _ _ (Nat.mod_lt _ (by decide)), decide_eq_false (by omega),
        Bool.false_and, Bool.xor_false, getPixel_mod]
    refine or_congr_right ⟨?_, ?_⟩
    · rintro (⟨c, hc, hb, hp⟩ | ⟨j, hj, c, hc, hb, hp⟩)
      · exact ⟨0, by simp, c, hc, by simpa using hb, hp⟩
      · rw [hrow j hj] at hp
        exact ⟨j + 1, by simpa using hj, c, hc, by simpa using hb, by rwa [Nat.add_comm j, ← Nat.add_assoc]⟩
    · rintro ⟨j, hj, c, hc, hb, hp⟩
      cases j with
      | zero => exact .inl ⟨c, hc, by simpa using hb, hp⟩
      | succ j =>
        have hj' : j < bs.length := by simpa using hj
        refine .inr ⟨j, hj', c, hc, by simpa using hb, ?_⟩
        rw [hrow j hj']
        rwa [Nat.add_assoc, Nat.add_comm 1]

end Sys2Proof.Machine
end

