-- ==== Sys2Proof/Laws/Memory.lean ====
section
/-! SUPPORT. What the memory operations do, said once: reading after writing, and that every operation keeps the canonical form. -/

namespace Sys2Proof.Machine

/-! ### The canonical form -/

theorem Memory.wfFrom_cons {lo a : Nat} {b : Byte} {m : Memory} :
    Memory.wfFrom lo ((a, b) :: m) = true ↔
      lo ≤ a ∧ a < Config.memSize ∧ b ≠ Memory.unlisted a ∧ Memory.wfFrom (a + 1) m = true := by
  simp [Memory.wfFrom, and_assoc]

theorem Memory.wfFrom_mono {lo lo' : Nat} (h : lo' ≤ lo) :
    ∀ {m : Memory}, Memory.wfFrom lo m = true → Memory.wfFrom lo' m = true
  | [], _ => rfl
  | (_, _) :: _, hm => by
    rw [Memory.wfFrom_cons] at hm ⊢
    exact ⟨le_trans h hm.1, hm.2⟩

theorem Memory.get_below {lo a : Nat} (h : a < lo) :
    ∀ {m : Memory}, Memory.wfFrom lo m = true → m.get a = Memory.unlisted a
  | [], _ => rfl
  | (k, b) :: m, hm => by
    rw [Memory.wfFrom_cons] at hm
    rw [Memory.get, if_neg (by omega), Memory.get_below (by omega) hm.2.2.2]

theorem Memory.place_wfFrom {lo a : Nat} {b : Byte} {m : Memory} (hlo : lo ≤ a) (ha : a < Config.memSize)
    (hm : Memory.wfFrom (a + 1) m = true) : Memory.wfFrom lo (Memory.place a b m) = true := by
  unfold Memory.place
  split
  · exact Memory.wfFrom_mono (by omega) hm
  · exact Memory.wfFrom_cons.2 ⟨hlo, ha, ‹_›, hm⟩

theorem Memory.get_place {a c : Nat} {b : Byte} {m : Memory} (hm : Memory.wfFrom (a + 1) m = true) :
    (Memory.place a b m).get c = if c = a then b else m.get c := by
  unfold Memory.place
  split
  · split
    · subst_vars; exact Memory.get_below (Nat.lt_succ_self _) hm
    · rfl
  · rfl

/-! ### `put` -/

theorem Memory.put_wfFrom {lo a : Nat} {b : Byte} (hlo : lo ≤ a) (ha : a < Config.memSize) :
    ∀ {m : Memory}, Memory.wfFrom lo m = true → Memory.wfFrom lo (m.put a b) = true
  | [], _ => Memory.place_wfFrom hlo ha rfl
  | (k, c) :: m, hm => by
    rw [Memory.wfFrom_cons] at hm
    rw [Memory.put]
    split
    · exact Memory.wfFrom_cons.2 ⟨hm.1, hm.2.1, hm.2.2.1, Memory.put_wfFrom (by omega) ha hm.2.2.2⟩
    · split
      · subst_vars; exact Memory.place_wfFrom hlo ha hm.2.2.2
      · exact Memory.place_wfFrom hlo ha (Memory.wfFrom_cons.2 ⟨by omega, hm.2⟩)

theorem Memory.put_wf {m : Memory} {a : Nat} {b : Byte} (ha : a < Config.memSize) (hm : m.wf = true) :
    (m.put a b).wf = true := Memory.put_wfFrom (Nat.zero_le a) ha hm

theorem Memory.get_putFrom {lo a c : Nat} {b : Byte} :
    ∀ {m : Memory}, Memory.wfFrom lo m = true → (m.put a b).get c = if c = a then b else m.get c
  | [], _ => Memory.get_place rfl
  | (k, d) :: m, hm => by
    have hm' := Memory.wfFrom_cons.1 hm
    rw [Memory.put]
    split
    · rw [Memory.get, Memory.get, Memory.get_putFrom hm'.2.2.2]
      split_ifs <;> first | rfl | omega
    · split
      · subst_vars
        rw [Memory.get_place hm'.2.2.2, Memory.get]
        split <;> simp_all
      · exact Memory.get_place (Memory.wfFrom_cons.2 ⟨by omega, hm'.2⟩)

/-- Reading after writing: the byte written at the address written, every other byte as before. -/
theorem Memory.get_put {m : Memory} (hm : m.wf = true) (a c : Nat) (b : Byte) :
    (m.put a b).get c = if c = a then b else m.get c := Memory.get_putFrom hm

/-! ### `ofFn` -/

theorem Memory.foldr_place_wfFrom (f : Nat → Byte) :
    ∀ n lo, lo + n ≤ Config.memSize →
      Memory.wfFrom lo ((List.range' lo n).foldr (fun a m => Memory.place a (f a) m) []) = true
  | 0, _, _ => rfl
  | n + 1, lo, h => by
    rw [List.range'_succ, List.foldr_cons]
    exact Memory.place_wfFrom le_rfl (by omega) (Memory.foldr_place_wfFrom f n (lo + 1) (by omega))

theorem Memory.foldr_range_wf (f : Nat → Byte) (n : Nat) (h : n ≤ Config.memSize) :
    ((List.range n).foldr (fun a m => Memory.place a (f a) m) []).wf = true := by
  rw [List.range_eq_range']
  exact Memory.foldr_place_wfFrom f n 0 (by omega)

theorem Memory.ofFn_wf (f : Nat → Byte) : (Memory.ofFn f).wf = true := by
  unfold Memory.ofFn
  exact Memory.foldr_range_wf f Config.memSize le_rfl

/-! ### `readByte`, `readBytes` -/

theorem readByte_ok {m : Memory} {a : Nat} (h : a < 4096) : readByte m a = .ok (m.get a) := if_pos h

theorem readByte_error {m : Memory} {a : Nat} (h : 4096 ≤ a) : readByte m a = .error (.memoryBounds a) :=
  if_neg (Nat.not_lt.2 h)

/-- `n` bytes inside memory are read in ascending order. -/
theorem readBytes_ok {m : Memory} : ∀ {n a : Nat}, (n = 0 ∨ a + n ≤ 4096) →
    readBytes m a n = .ok ((List.range' a n).map m.get)
  | 0, _, _ => rfl
  | n + 1, a, h => by
    rw [readBytes, readByte_ok (by omega), readBytes_ok (by omega)]
    rfl

/-- Bytes beyond memory are not read: the first address out of bounds is reported. -/
theorem readBytes_error {m : Memory} : ∀ {n a : Nat}, n ≠ 0 → 4096 < a + n →
    readBytes m a n = .error (.memoryBounds (max a 4096))
  | 0, _, h, _ => absurd rfl h
  | n + 1, a, _, h => by
    rw [readBytes]
    rcases Nat.lt_or_ge a 4096 with ha | ha
    · rw [readByte_ok ha, readBytes_error (by omega) (by omega)]
      show Except.error (Cause.memoryBounds _) = _
      rw [show max (a + 1) 4096 = max a 4096 by omega]
    · rw [readByte_error ha, Nat.max_eq_left ha]

/-! ### `writeByte`, `writeBytes` -/

theorem writeByte_ok {m : Memory} {a : Nat} {b : Byte} (h : a < 4096) : writeByte m a b = .ok (m.put a b) := if_pos h

theorem writeByte_error {m : Memory} {a : Nat} {b : Byte} (h : 4096 ≤ a) :
    writeByte m a b = .error (.memoryBounds a) := if_neg (Nat.not_lt.2 h)

/-- Bytes that fit in memory are written at ascending addresses: the canonical form is kept, each byte reads back and no other
byte changes. -/
theorem writeBytes_ok : ∀ {bs : List Byte} {m : Memory} {a : Nat}, (bs = [] ∨ a + bs.length ≤ 4096) → m.wf = true →
    ∃ m', writeBytes m a bs = .ok m' ∧ m'.wf = true ∧
      ∀ c, m'.get c = if h : a ≤ c ∧ c < a + bs.length then bs[c - a]'(by omega) else m.get c
  | [], m, a, _, hm => ⟨m, rfl, hm, fun c => by rw [dif_neg (by simp)]⟩
  | b :: bs, m, a, h, hm => by
    have h' : a + (bs.length + 1) ≤ 4096 := by simpa using h
    obtain ⟨m', h1, h2, h3⟩ := writeBytes_ok (bs := bs) (m := m.put a b) (a := a + 1)
      (Or.inr (by omega)) (Memory.put_wf (show a < 4096 by omega) hm)
    refine ⟨m', by rw [writeBytes, writeByte_ok (by omega)]; exact h1, h2, fun c => ?_⟩
    rw [h3, Memory.get_put hm]
    by_cases hc : c = a
    · subst hc
      rw [dif_neg (by omega), if_pos rfl, dif_pos (by simp)]
      simp
    · by_cases hin : a + 1 ≤ c ∧ c < a + 1 + bs.length
      · rw [dif_pos hin, dif_pos (by simp; omega)]
        have : c - a = (c - (a + 1)) + 1 := by omega
        simp [this]
      · rw [dif_neg hin, if_neg hc, dif_neg (by simp; omega)]

/-- Bytes that do not fit raise `MemoryBounds` at the first address out of bounds. -/
theorem writeBytes_error : ∀ {bs : List Byte} {m : Memory} {a : Nat}, bs ≠ [] → 4096 < a + bs.length →
    writeBytes m a bs = .error (.memoryBounds (max a 4096))
  | [], _, _, h, _ => absurd rfl h
  | b :: bs, m, a, _, h => by
    rw [writeBytes]
    have hl : 4096 < a + (bs.length + 1) := by simpa using h
    rcases Nat.lt_or_ge a 4096 with ha | ha
    · rw [writeByte_ok ha]
      have hb : bs ≠ [] := by rintro rfl; simp at hl; omega
      simp only
      rw [writeBytes_error hb (by omega)]
      congr 2
      omega
    · rw [writeByte_error ha, Nat.max_eq_left ha]

/-- Whether a bulk write goes on depends on the addresses alone, whatever memory holds. -/
theorem writeBytes_fits : ∀ {bs : List Byte} {m : Memory} {a : Nat}, (bs = [] ∨ a + bs.length ≤ 4096) →
    ∃ m', writeBytes m a bs = .ok m'
  | [], m, _, _ => ⟨m, rfl⟩
  | b :: bs, m, a, h => by
    have h' : a + (bs.length + 1) ≤ 4096 := by simpa using h
    obtain ⟨m', hm'⟩ := writeBytes_fits (bs := bs) (m := m.put a b) (a := a + 1) (Or.inr (by omega))
    exact ⟨m', by rw [writeBytes, writeByte_ok (by omega)]; exact hm'⟩

/-- What a bulk write can answer: a memory, canonical when it was, or a bounds fault. -/
theorem writeBytes_cases (bs : List Byte) (m : Memory) (a : Nat) :
    (∃ m', writeBytes m a bs = .ok m' ∧ (m.wf = true → m'.wf = true)) ∨
      ∃ c, writeBytes m a bs = .error (.memoryBounds c) := by
  by_cases h : bs = [] ∨ a + bs.length ≤ 4096
  · obtain ⟨m', h1⟩ := writeBytes_fits (m := m) h
    refine .inl ⟨m', h1, fun hm => ?_⟩
    obtain ⟨m'', h2, h3, _⟩ := writeBytes_ok h hm
    rw [h1] at h2
    cases h2
    exact h3
  · push Not at h
    exact .inr ⟨_, writeBytes_error h.1 h.2⟩

/-! ### `load` -/

/-- The copy loop of `Init`: the canonical form is kept, each byte reads back and no other byte changes. -/
theorem Memory.load_spec : ∀ {bs : List Byte} {m : Memory} {a : Nat}, a + bs.length ≤ 4096 → m.wf = true →
    (m.load a bs).wf = true ∧
      ∀ c, (m.load a bs).get c = if h : a ≤ c ∧ c < a + bs.length then bs[c - a]'(by omega) else m.get c := by
  intro bs
  induction bs with
  | nil => exact fun _ hm => ⟨hm, fun c => by rw [dif_neg (by simp)]; rfl⟩
  | cons b bs ih =>
    intro m a h hm
    have h' : a + (bs.length + 1) ≤ 4096 := by simpa using h
    obtain ⟨h2, h3⟩ := ih (m := m.put a b) (a := a + 1) (by omega) (Memory.put_wf (show a < 4096 by omega) hm)
    refine ⟨h2, fun c => ?_⟩
    rw [Memory.load, h3, Memory.get_put hm]
    by_cases hc : c = a
    · subst hc
      rw [dif_neg (by omega), if_pos rfl, dif_pos (by simp)]
      simp
    · by_cases hin : a + 1 ≤ c ∧ c < a + 1 + bs.length
      · rw [dif_pos hin, dif_pos (by simp; omega)]
        have : c - a = (c - (a + 1)) + 1 := by omega
        simp [this]
      · rw [dif_neg hin, if_neg hc, dif_neg (by simp; omega)]

/-! ### The reset image -/

theorem Memory.wf_reset : State.reset.mem.wf = true := rfl

theorem Memory.get_reset (a : Nat) : State.reset.mem.get a = Memory.unlisted a := rfl

theorem Config.fontBase_le : Config.fontBase + 80 ≤ 0x200 := by
  have := Config.fontBaseParam.isLt
  simp only [Config.fontBase]
  omega

theorem Memory.unlisted_font (j : Fin 80) : Memory.unlisted (Config.fontBase + j.val) = Config.fontTable j := by
  have h := Config.fontBase_le
  have hj := j.isLt
  rw [Memory.unlisted, if_neg (by simp only [Config.progBase]; omega), dif_pos ⟨by omega, by simp only [Config.fontSize]; omega⟩]
  congr 1
  ext
  simp

theorem Memory.unlisted_zero {a : Nat} (h : a < Config.fontBase ∨ Config.fontBase + 80 ≤ a) : Memory.unlisted a = 0 := by
  rw [Memory.unlisted]
  split
  · rfl
  · rw [dif_neg]
    simp only [Config.fontSize]
    omega

end Sys2Proof.Machine
end

