-- ==== Sys2Proof/Laws/Ops.lean ====
section
/-! SUPPORT. One lemma per shared operation, saying once what it can answer. -/

namespace Sys2Proof.Machine

/-! ### `finish`: an effect, or a fault taken -/

@[simp] theorem finish_ok (s t : State) : finish s (.ok t) = .next t := rfl

@[simp] theorem finish_error (s : State) (c : Cause) : finish s (.error c) = .next (raise c s) := rfl

/-- A fault that is taken leaves the core faulted. -/
theorem raise_not_running (c : Cause) (s : State) : (raise c s).status ≠ .running := by simp

/-- Taking a fault keeps memory canonical, whatever the free values are. -/
theorem raise_mem_wf (c : Cause) (s : State) : (raise c s).mem.wf = true := by
  rw [raise_mem]
  exact Memory.ofFn_wf _

/-! ### Fetch -/

theorem fetchWord_ok {s : State} (h : s.pc.toNat ≤ 0xFFE) :
    fetchWord s = .ok (wordOfBytes (s.mem.get s.pc.toNat) (s.mem.get (s.pc.toNat + 1))) := by
  rw [fetchWord, readByte_ok (by omega), readByte_ok (by omega)]

theorem fetchWord_error {s : State} (h : 0xFFE < s.pc.toNat) :
    fetchWord s = .error (.memoryBounds (max s.pc.toNat 0x1000)) := by
  rw [fetchWord]
  rcases Nat.lt_or_ge s.pc.toNat 4096 with ha | ha
  · rw [readByte_ok ha, readByte_error (by omega)]
    rw [show max s.pc.toNat 0x1000 = s.pc.toNat + 1 by omega]
  · rw [readByte_error ha, Nat.max_eq_left ha]

/-- The fetch reads memory and `PC` alone. -/
theorem fetchInstr_congr {s t : State} (hm : s.mem = t.mem) (hp : s.pc = t.pc) : fetchInstr s = fetchInstr t := by
  simp only [fetchInstr, fetchWord, hm, hp]

/-- An instruction was fetched from inside memory, from the word that decodes to it. -/
theorem fetchInstr_ok {s : State} {i : Instr} (h : fetchInstr s = .ok i) :
    s.pc.toNat ≤ 0xFFE ∧
      decodeWord (wordOfBytes (s.mem.get s.pc.toNat) (s.mem.get (s.pc.toNat + 1))) = .ok i := by
  by_cases hp : s.pc.toNat ≤ 0xFFE
  · refine ⟨hp, ?_⟩
    rw [fetchInstr, fetchWord_ok hp] at h
    revert h
    simp only
    split <;> simp_all
  · rw [fetchInstr, fetchWord_error (by omega)] at h
    cases h

/-! ### The step: everything it can answer -/

/-- A step from a running core either takes the fault of its fetch or decode, or executes the instruction fetched. -/
theorem step_running {s : State} (h : s.status = .running) :
    (∃ c, fetchInstr s = .error c ∧ step s = .next (raise c s)) ∨
      ∃ i, fetchInstr s = .ok i ∧ step s = exec i (beginStep s) := by
  rw [step, h]
  cases hf : fetchInstr s with
  | error c => exact .inl ⟨c, rfl, rfl⟩
  | ok i => exact .inr ⟨i, rfl, rfl⟩

/-- A faulted core takes no step. -/
theorem step_faulted {s : State} {c : Cause} (h : s.status = .faulted c) : step s = .fault (.stepNotEnabled c) := by
  rw [step, h]

/-- What the step of a fetched instruction is. -/
theorem step_of_fetch {s : State} {i : Instr} (h : s.status = .running) (hf : fetchInstr s = .ok i) :
    step s = exec i (beginStep s) := by
  rw [step, h]
  simp only [hf]

/-! ### Keys -/

theorem keyOperand_ok {b : Byte} (h : b.toNat ≤ 15) : keyOperand b = .ok (b.setWidth 4) := if_pos h

theorem keyOperand_error {b : Byte} (h : 15 < b.toNat) : keyOperand b = .error (.keyIndex b) := if_neg (by omega)

/-- No key is down exactly when the search finds none. -/
theorem lowestKey_none {s : State} : lowestKey s = none ↔ ∀ k : Nibble, keyDown s k = false := by
  rw [lowestKey, List.findIdx?_eq_none_iff]
  constructor
  · intro h k
    have := h _ (List.getElem_mem (l := s.keys.toList) (n := k.toNat) (by simpa using k.isLt))
    simpa [keyDown] using this
  · intro h b hb
    obtain ⟨n, hn, rfl⟩ := List.getElem_of_mem hb
    have hn' : n < 16 := by simpa using hn
    have := h (BitVec.ofNat 4 n)
    simp only [keyDown, BitVec.toNat_ofNat, Nat.mod_eq_of_lt hn'] at this
    simpa using this

/-- The key found is down and every key below it is up. -/
theorem lowestKey_some {s : State} {n : Nat} :
    lowestKey s = some n ↔ ∃ k : Nibble, k.toNat = n ∧ keyDown s k = true ∧ ∀ j : Nibble, j.toNat < n → keyDown s j = false := by
  rw [lowestKey, List.findIdx?_eq_some_iff_getElem]
  constructor
  · rintro ⟨hn, hd, hb⟩
    have hn' : n < 16 := by simpa using hn
    refine ⟨BitVec.ofNat 4 n, by simp; omega, ?_, fun j hj => ?_⟩
    · simpa [keyDown, Nat.mod_eq_of_lt hn'] using hd
    · simpa [keyDown] using hb j.toNat hj
  · rintro ⟨k, rfl, hd, hb⟩
    refine ⟨by simpa using k.isLt, by simpa [keyDown] using hd, fun j hj => ?_⟩
    have hj' : j < 16 := lt_trans hj k.isLt
    have := hb (BitVec.ofNat 4 j) (by simpa [Nat.mod_eq_of_lt hj'] using hj)
    simp only [keyDown, BitVec.toNat_ofNat, Nat.mod_eq_of_lt hj'] at this
    simpa using this

/-! ### Timers -/

theorem tickDown_toNat (t : Byte) : (tickDown t).toNat = t.toNat - 1 := by
  have := t.isLt
  unfold tickDown
  split
  · subst_vars; rfl
  · rename_i h
    have : t.toNat ≠ 0 := fun h' => h (by simpa using (BitVec.toNat_inj (y := 0#8)).1 h')
    rw [BitVec.toNat_sub_of_le (by rw [BitVec.le_def]; simp; omega)]
    rfl

end Sys2Proof.Machine
end

