-- ==== Sys2Proof/Laws/Registers.lean ====
section
/-! SUPPORT. What reading a general register gives after each update of the registers, and the exact values of the flags. -/

namespace Sys2Proof.Machine

/-- Reading a register looks at the register file alone. -/
theorem getV_eq_of_v {s t : State} (h : s.v = t.v) (r : Nibble) : getV s r = getV t r := by
  simp only [getV, h]

/-- Reading after a write: the written register, every other as before. -/
theorem getV_setV (s : State) (r q : Nibble) (b : Byte) : getV (setV s r b) q = if q = r then b else getV s q := by
  simp only [getV, setV, Vector.getElem_set, BitVec.toNat_inj, eq_comm (a := r)]

@[simp] theorem getV_setV_self (s : State) (r : Nibble) (b : Byte) : getV (setV s r b) r = b := by
  rw [getV_setV, if_pos rfl]

/-- The flag is written last: `VF` holds it, then the result, then the old registers (R151c). -/
theorem getV_setResultAndFlag (s : State) (x q : Nibble) (b : Byte) (c : Bool) :
    getV (setResultAndFlag s x b c) q = if q = 15 then flagByte c else if q = x then b else getV s q := by
  rw [setResultAndFlag, getV_setV, getV_setV]

theorem flagByte_toNat (c : Bool) : (flagByte c).toNat = if c then 1 else 0 := by cases c <;> rfl

theorem shiftedOutRight_eq (a : Byte) : shiftedOutRight a = decide (a.toNat % 2 = 1) := by
  simp only [shiftedOutRight, BitVec.getLsbD, Nat.testBit_zero]

theorem shiftedOutLeft_eq (a : Byte) : shiftedOutLeft a = decide (128 ≤ a.toNat) := by
  have := a.isLt
  simp only [shiftedOutLeft, BitVec.getLsbD, Nat.testBit_eq_decide_div_mod_eq]
  congr 1
  apply propext
  omega

/-! ### Register ranges -/

theorem regsThrough_length (s : State) (x : Nibble) : (regsThrough s x).length = x.toNat + 1 := by
  have := x.isLt
  simp only [regsThrough, List.length_take, Vector.length_toList]
  omega

theorem regsThrough_getElem (s : State) (x r : Nibble) (h : r.toNat < (regsThrough s x).length) :
    (regsThrough s x)[r.toNat] = getV s r := by
  simp only [regsThrough, List.getElem_take, Vector.getElem_toList, getV]

/-- Filling the registers from `k` on with the bytes: those registers, and no other. -/
theorem fillRegs_getElem : ∀ (bs : List Byte) (v : Vector Byte 16) (k j : Nat) (h : j < 16),
    (fillRegs v k bs)[j] = if h' : k ≤ j ∧ j < k + bs.length then bs[j - k]'(by omega) else v[j]
  | [], _, _, _, _ => by rw [dif_neg (by simp)]; rfl
  | b :: bs, v, k, j, h => by
    rw [fillRegs, fillRegs_getElem bs, Vector.getElem_setIfInBounds]
    by_cases hj : k = j
    · subst hj
      rw [dif_neg (by omega), if_pos rfl, dif_pos (by simp)]
      simp
    · by_cases hin : k + 1 ≤ j ∧ j < k + 1 + bs.length
      · rw [dif_pos hin, dif_pos (by simp; omega)]
        have : j - k = (j - (k + 1)) + 1 := by omega
        simp [this]
      · rw [dif_neg hin, if_neg hj, dif_neg (by simp; omega)]

end Sys2Proof.Machine
end

