-- ==== Sys2Proof/Laws/Exec.lean ====
section
/-! SUPPORT. What each meaning that can take more than one way answers, said once: where it goes on, where it faults. -/

namespace Sys2Proof.Machine

/-! ### Skips -/

/-- A skip goes on, moving at most `PC`. -/
theorem skipIf_eq (c : Bool) (s : State) : skipIf c s = .next { s with pc := if c then s.pc + 2 else s.pc } := by
  cases c <;> rfl

/-- A keypad skip with a key number is a skip on that key's level. -/
theorem skipOnKey_ok {want : Bool} {x : Nibble} {s : State} (h : (getV s x).toNat ≤ 15) :
    skipOnKey want x s = skipIf (keyDown s ((getV s x).setWidth 4) == want) s := by
  rw [skipOnKey, keyOperand_ok h]

/-- A keypad skip above 15 takes `KeyIndex`. -/
theorem skipOnKey_error {want : Bool} {x : Nibble} {s : State} (h : 15 < (getV s x).toNat) :
    skipOnKey want x s = .next (raise (.keyIndex (getV s x)) s) := by
  rw [skipOnKey, keyOperand_error h]
  rfl

/-! ### Call and return -/

/-- `RET` pops, takes `StackUnderflow`, or finds no such entry. -/
theorem execRet_cases (s : State) :
    (s.sp = 0 ∧ execRet s = .next (raise .stackUnderflow s)) ∨
    (∃ h : s.sp.toNat - 1 < 16, s.sp ≠ 0 ∧ execRet s = .next (popEntry s h)) ∨
    (16 < s.sp.toNat ∧ execRet s = .fault (.noSuchStackEntry (s.sp.toNat - 1))) := by
  rw [execRet]
  split_ifs with h0 h1
  · exact .inl ⟨h0, rfl⟩
  · exact .inr (.inl ⟨h1, h0, rfl⟩)
  · exact .inr (.inr ⟨by omega, rfl⟩)

/-- `CALL` pushes and jumps, takes `StackOverflow`, or finds no such entry. -/
theorem execCall_cases (nnn : Addr12) (s : State) :
    (s.sp = 16 ∧ execCall nnn s = .next (raise .stackOverflow s)) ∨
    (∃ h : s.sp.toNat < 16, execCall nnn s = .next (setPC (pushEntry s s.pc h) (addressOf nnn))) ∨
    (16 < s.sp.toNat ∧ execCall nnn s = .fault (.noSuchStackEntry s.sp.toNat)) := by
  rw [execCall]
  split_ifs with h0 h1
  · exact .inl ⟨h0, rfl⟩
  · exact .inr (.inl ⟨h1, rfl⟩)
  · refine .inr (.inr ⟨?_, rfl⟩)
    have : s.sp.toNat ≠ 16 := fun h => h0 (BitVec.toNat_inj.1 h)
    omega

/-! ### Stores and loads at `I` -/

/-- Bytes that fit are stored at `I`, and nothing but memory changes. -/
theorem storeAtI_ok {bs : List Byte} {s : State} (h : bs = [] ∨ s.i.toNat + bs.length ≤ 4096) (hm : s.mem.wf = true) :
    ∃ m', storeAtI bs s = .next { s with mem := m' } ∧ m'.wf = true ∧
      ∀ c, m'.get c = if h : s.i.toNat ≤ c ∧ c < s.i.toNat + bs.length then bs[c - s.i.toNat]'(by omega) else s.mem.get c := by
  obtain ⟨m', h1, h2, h3⟩ := writeBytes_ok h hm
  exact ⟨m', by rw [storeAtI, h1]; rfl, h2, h3⟩

/-- Bytes that do not fit raise `MemoryBounds` at the first address above 0xFFF. -/
theorem storeAtI_error {bs : List Byte} {s : State} (hb : bs ≠ []) (h : 4096 < s.i.toNat + bs.length) :
    storeAtI bs s = .next (raise (.memoryBounds (max s.i.toNat 4096)) s) := by
  rw [storeAtI, writeBytes_error hb h, finish_error]

/-- A store goes on, keeping memory canonical, or takes `MemoryBounds`. -/
theorem storeAtI_cases (bs : List Byte) (s : State) :
    (∃ m', storeAtI bs s = .next { s with mem := m' } ∧ (s.mem.wf = true → m'.wf = true)) ∨
      ∃ a, storeAtI bs s = .next (raise (.memoryBounds a) s) := by
  rw [storeAtI]
  rcases writeBytes_cases bs s.mem s.i.toNat with ⟨m', h, hm⟩ | ⟨a, h⟩ <;> rw [h]
  · exact .inl ⟨m', rfl, hm⟩
  · exact .inr ⟨a, rfl⟩

theorem decimalDigits_length (b : Byte) : (decimalDigits b).length = 3 := rfl

theorem regsThrough_ne_nil (s : State) (x : Nibble) : regsThrough s x ≠ [] := by
  rw [← List.length_pos_iff, regsThrough_length]
  omega

/-- A bulk load inside memory fills the registers `V0 .. Vx`. -/
theorem execLoadRegs_ok {x : Nibble} {s : State} (h : s.i.toNat + x.toNat ≤ 0xFFF) :
    execLoadRegs x s =
      .next { s with v := fillRegs s.v 0 ((List.range' s.i.toNat (x.toNat + 1)).map s.mem.get) } := by
  rw [execLoadRegs, readBytes_ok (by omega), finish_ok]

/-- A bulk load beyond memory takes `MemoryBounds`. -/
theorem execLoadRegs_error {x : Nibble} {s : State} (h : 0xFFF < s.i.toNat + x.toNat) :
    execLoadRegs x s = .next (raise (.memoryBounds (max s.i.toNat 4096)) s) := by
  rw [execLoadRegs, readBytes_error (by omega) (by omega), finish_error]

/-! ### Draw -/

/-- What `DRW` leaves of the sprite bytes it read. -/
def drawing (s : State) (x y n : Nibble) : Drawing :=
  drawRows (getV s x).toNat (getV s y).toNat (s.fb, false) ((List.range' s.i.toNat n.toNat).map s.mem.get)

/-- A draw whose bytes lie in memory goes on. -/
theorem execDrw_ok {x y n : Nibble} {s : State} (h : n.toNat = 0 ∨ s.i.toNat + n.toNat ≤ 4096) :
    execDrw x y n s =
      .next (setV { s with fb := (drawing s x y n).1, redraw := true } vf (flagByte (drawing s x y n).2)) := by
  rw [execDrw, readBytes_ok h, finish_ok]
  rfl

/-- A draw beyond memory takes `MemoryBounds`. -/
theorem execDrw_error {x y n : Nibble} {s : State} (hn : n.toNat ≠ 0) (h : 4096 < s.i.toNat + n.toNat) :
    execDrw x y n s = .next (raise (.memoryBounds (max s.i.toNat 4096)) s) := by
  rw [execDrw, readBytes_error hn h, finish_error]

/-! ### Key wait -/

theorem execLdVxK_some {x : Nibble} {s : State} {k : Nat} (h : lowestKey s = some k) :
    execLdVxK x s = .next (setV s x (BitVec.ofNat 8 k)) := by
  rw [execLdVxK, h]

theorem execLdVxK_none {x : Nibble} {s : State} (h : lowestKey s = none) : execLdVxK x s = .next (rewindPC s) := by
  rw [execLdVxK, h]

end Sys2Proof.Machine
end

