-- ==== Sys2Proof/Laws/Operands.lean ====
section
/-! SUPPORT. The exact value of each address operand: none of them wraps the 16-bit register. -/

namespace Sys2Proof.Machine

@[simp] theorem addressOf_toNat (nnn : Addr12) : (addressOf nnn).toNat = nnn.toNat := by
  have := nnn.isLt
  simp [addressOf]
  omega

theorem indexedTarget_toNat (s : State) (nnn : Addr12) :
    (indexedTarget s nnn).toNat = nnn.toNat + (getV s 0).toNat := by
  have := nnn.isLt
  have := (getV s 0).isLt
  rw [indexedTarget, BitVec.toNat_add, addressOf_toNat, BitVec.toNat_setWidth, Nat.mod_eq_of_lt (a := (getV s 0).toNat) (by omega),
    Nat.mod_eq_of_lt (by omega)]

theorem indexSum_toNat (s : State) (b : Byte) : (indexSum s b).toNat = (s.i.toNat + b.toNat) % 4096 := by
  rw [indexSum, BitVec.toNat_ofNat, Nat.mod_eq_of_lt (by omega)]

theorem glyphAddress_toNat (b : Byte) : (glyphAddress b).toNat = Config.fontBase + 5 * (b.toNat % 16) := by
  have h := Config.fontBase_le
  have h' := Nat.mod_lt b.toNat (show 16 > 0 by decide)
  rw [glyphAddress, BitVec.toNat_ofNat, Config.glyphBytes, Nat.mod_eq_of_lt (by omega)]

/-- The three digits as numbers: hundreds, tens, ones (R192). -/
theorem decimalDigits_toNat (b : Byte) :
    (decimalDigits b).map BitVec.toNat = [b.toNat / 100, b.toNat / 10 % 10, b.toNat % 10] := by
  have := b.isLt
  simp only [decimalDigits, List.map_cons, List.map_nil, BitVec.toNat_ofNat]
  rw [Nat.mod_eq_of_lt (a := b.toNat / 100) (by omega), Nat.mod_eq_of_lt (a := b.toNat / 10 % 10) (by omega),
    Nat.mod_eq_of_lt (a := b.toNat % 10) (by omega)]

end Sys2Proof.Machine
end

