-- ==== Sys2Proof/Laws/PerInstr.lean ====
section
/-! SUPPORT. For every instruction, one lemma per constructor: its word holds the fixed bits of its own row of the opcode map
(spec/30_encoding.md R86). -/

namespace Sys2Proof.Laws.Encoding

/-- The word of `i` selects the row of the opcode map that bears `i`'s mnemonic (R86). -/
def Statement (i : Instr) : Prop := ∃ r ∈ opcodeMap, r.mnemonic = i.mnemonic ∧ r.selects (encode i) = true

/-- A row of the map that bears the mnemonic and whose fixed bits the word holds. -/
theorem of_row {i : Instr} (r : OpRow) (hr : r ∈ opcodeMap) (hm : r.mnemonic = i.mnemonic)
    (hw : encode i &&& r.mask = r.pattern) : Statement i :=
  ⟨r, hr, hm, by simpa [OpRow.selects] using hw⟩

theorem cls : Statement .cls :=
  of_row ⟨"CLS", 0xFFFF, 0x00E0⟩ (by decide) rfl (by decide)

theorem ret : Statement .ret :=
  of_row ⟨"RET", 0xFFFF, 0x00EE⟩ (by decide) rfl (by decide)

theorem jp (nnn : Addr12) : Statement (.jp nnn) :=
  of_row ⟨"JP_nnn", 0xF000, 0x1000⟩ (by decide) rfl ((formatA_and_family _ _).trans (by decide))

theorem call (nnn : Addr12) : Statement (.call nnn) :=
  of_row ⟨"CALL_nnn", 0xF000, 0x2000⟩ (by decide) rfl ((formatA_and_family _ _).trans (by decide))

theorem seImm (x : Nibble) (kk : Byte) : Statement (.seImm x kk) :=
  of_row ⟨"SE_Vx__kk", 0xF000, 0x3000⟩ (by decide) rfl ((formatXK_and_family _ _ _).trans (by decide))

theorem sneImm (x : Nibble) (kk : Byte) : Statement (.sneImm x kk) :=
  of_row ⟨"SNE_Vx__kk", 0xF000, 0x4000⟩ (by decide) rfl ((formatXK_and_family _ _ _).trans (by decide))

theorem seReg (x y : Nibble) : Statement (.seReg x y) :=
  of_row ⟨"SE_Vx__Vy", 0xF00F, 0x5000⟩ (by decide) rfl ((formatXYN_and_selector _ _ _ _).trans (by decide))

theorem ldImm (x : Nibble) (kk : Byte) : Statement (.ldImm x kk) :=
  of_row ⟨"LD_Vx__kk", 0xF000, 0x6000⟩ (by decide) rfl ((formatXK_and_family _ _ _).trans (by decide))

theorem addImm (x : Nibble) (kk : Byte) : Statement (.addImm x kk) :=
  of_row ⟨"ADD_Vx__kk", 0xF000, 0x7000⟩ (by decide) rfl ((formatXK_and_family _ _ _).trans (by decide))

theorem ldReg (x y : Nibble) : Statement (.ldReg x y) :=
  of_row ⟨"LD_Vx__Vy", 0xF00F, 0x8000⟩ (by decide) rfl ((formatXYN_and_selector _ _ _ _).trans (by decide))

theorem orReg (x y : Nibble) : Statement (.orReg x y) :=
  of_row ⟨"OR_Vx__Vy", 0xF00F, 0x8001⟩ (by decide) rfl ((formatXYN_and_selector _ _ _ _).trans (by decide))

theorem andReg (x y : Nibble) : Statement (.andReg x y) :=
  of_row ⟨"AND_Vx__Vy", 0xF00F, 0x8002⟩ (by decide) rfl ((formatXYN_and_selector _ _ _ _).trans (by decide))

theorem xorReg (x y : Nibble) : Statement (.xorReg x y) :=
  of_row ⟨"XOR_Vx__Vy", 0xF00F, 0x8003⟩ (by decide) rfl ((formatXYN_and_selector _ _ _ _).trans (by decide))

theorem addReg (x y : Nibble) : Statement (.addReg x y) :=
  of_row ⟨"ADD_Vx__Vy", 0xF00F, 0x8004⟩ (by decide) rfl ((formatXYN_and_selector _ _ _ _).trans (by decide))

theorem subReg (x y : Nibble) : Statement (.subReg x y) :=
  of_row ⟨"SUB_Vx__Vy", 0xF00F, 0x8005⟩ (by decide) rfl ((formatXYN_and_selector _ _ _ _).trans (by decide))

theorem shr (x y : Nibble) : Statement (.shr x y) :=
  of_row ⟨"SHR_Vx", 0xF00F, 0x8006⟩ (by decide) rfl ((formatXYN_and_selector _ _ _ _).trans (by decide))

theorem subnReg (x y : Nibble) : Statement (.subnReg x y) :=
  of_row ⟨"SUBN_Vx__Vy", 0xF00F, 0x8007⟩ (by decide) rfl ((formatXYN_and_selector _ _ _ _).trans (by decide))

theorem shl (x y : Nibble) : Statement (.shl x y) :=
  of_row ⟨"SHL_Vx", 0xF00F, 0x800E⟩ (by decide) rfl ((formatXYN_and_selector _ _ _ _).trans (by decide))

theorem sneReg (x y : Nibble) : Statement (.sneReg x y) :=
  of_row ⟨"SNE_Vx__Vy", 0xF00F, 0x9000⟩ (by decide) rfl ((formatXYN_and_selector _ _ _ _).trans (by decide))

theorem ldI (nnn : Addr12) : Statement (.ldI nnn) :=
  of_row ⟨"LD_I__nnn", 0xF000, 0xA000⟩ (by decide) rfl ((formatA_and_family _ _).trans (by decide))

theorem jpV0 (nnn : Addr12) : Statement (.jpV0 nnn) :=
  of_row ⟨"JP_V0__nnn", 0xF000, 0xB000⟩ (by decide) rfl ((formatA_and_family _ _).trans (by decide))

theorem rnd (x : Nibble) (kk : Byte) : Statement (.rnd x kk) :=
  of_row ⟨"RND_Vx__kk", 0xF000, 0xC000⟩ (by decide) rfl ((formatXK_and_family _ _ _).trans (by decide))

theorem drw (x y n : Nibble) : Statement (.drw x y n) :=
  of_row ⟨"DRW_Vx__Vy__n", 0xF000, 0xD000⟩ (by decide) rfl ((formatXYN_and_family _ _ _ _).trans (by decide))

theorem skp (x : Nibble) : Statement (.skp x) :=
  of_row ⟨"SKP_Vx", 0xF0FF, 0xE09E⟩ (by decide) rfl ((formatXK_and_selector _ _ _).trans (by decide))

theorem sknp (x : Nibble) : Statement (.sknp x) :=
  of_row ⟨"SKNP_Vx", 0xF0FF, 0xE0A1⟩ (by decide) rfl ((formatXK_and_selector _ _ _).trans (by decide))

theorem ldVxDt (x : Nibble) : Statement (.ldVxDt x) :=
  of_row ⟨"LD_Vx__DT", 0xF0FF, 0xF007⟩ (by decide) rfl ((formatXK_and_selector _ _ _).trans (by decide))

theorem ldVxK (x : Nibble) : Statement (.ldVxK x) :=
  of_row ⟨"LD_Vx__K", 0xF0FF, 0xF00A⟩ (by decide) rfl ((formatXK_and_selector _ _ _).trans (by decide))

theorem ldDtVx (x : Nibble) : Statement (.ldDtVx x) :=
  of_row ⟨"LD_DT__Vx", 0xF0FF, 0xF015⟩ (by decide) rfl ((formatXK_and_selector _ _ _).trans (by decide))

theorem ldStVx (x : Nibble) : Statement (.ldStVx x) :=
  of_row ⟨"LD_ST__Vx", 0xF0FF, 0xF018⟩ (by decide) rfl ((formatXK_and_selector _ _ _).trans (by decide))

theorem addI (x : Nibble) : Statement (.addI x) :=
  of_row ⟨"ADD_I__Vx", 0xF0FF, 0xF01E⟩ (by decide) rfl ((formatXK_and_selector _ _ _).trans (by decide))

theorem ldF (x : Nibble) : Statement (.ldF x) :=
  of_row ⟨"LD_F__Vx", 0xF0FF, 0xF029⟩ (by decide) rfl ((formatXK_and_selector _ _ _).trans (by decide))

theorem ldB (x : Nibble) : Statement (.ldB x) :=
  of_row ⟨"LD_B__Vx", 0xF0FF, 0xF033⟩ (by decide) rfl ((formatXK_and_selector _ _ _).trans (by decide))

theorem storeRegs (x : Nibble) : Statement (.storeRegs x) :=
  of_row ⟨"LD__I___Vx", 0xF0FF, 0xF055⟩ (by decide) rfl ((formatXK_and_selector _ _ _).trans (by decide))

theorem loadRegs (x : Nibble) : Statement (.loadRegs x) :=
  of_row ⟨"LD_Vx___I", 0xF0FF, 0xF065⟩ (by decide) rfl ((formatXK_and_selector _ _ _).trans (by decide))

end Sys2Proof.Laws.Encoding
end

