-- ==== Sys2Proof/Tests/Slice0.lean ====
section
/-! SUPPORT. Tests: words written out from the spec's encodings, the check of words, single steps from spec/95_test_vectors.md, and
for every statement that has hypotheses a state and operands that meet them. Expected values come from the spec. Programs and
data stand at 0x200 and above: below it the font's opaque bytes may lie (log 4). -/

namespace Sys2Proof.Tests

open Sys2Proof Sys2Proof.Machine Host

/-! ### Helpers -/

/-- The state after reset with register `r` at `b`. -/
def reg (r : Nibble) (b : Byte) : State := setV State.reset r b

/-- The state after reset with two registers set. -/
def reg2 (r : Nibble) (b : Byte) (q : Nibble) (c : Byte) : State := setV (reg r b) q c

/-- A keypad with exactly the keys of the list down. -/
def keypad (down : List Nat) : Vector Bool 16 := Vector.ofFn fun k => down.contains k.val

/-- What a next state shows through `f`. -/
def shown {α : Type} (f : State → α) : Outcome State Fault Refusal → Option α
  | .next t => some (f t)
  | .fault _ => none
  | .refused _ => none

/-- What one step of the word `w`, placed where `s` fetches, shows through `f`. -/
def after {α : Type} (f : State → α) (w : Nat) (s : State) : Option α := shown f (step (s.withFetchWord 16 w))

/-- The registers two tests of arithmetic look at. -/
def pair (r q : Nibble) (s : State) : Byte × Byte := (getV s r, getV s q)

/-- The lit pixels of one row, left to right. -/
def litInRow (y : Nat) (s : State) : List Nat := (List.range 64).filter fun x => getPixel s.fb x y

/-! ### Decoding: one word per constructor, from R86's patterns and 95_test_vectors.md section 2.1 -/

theorem test_decode_cls : decode [0x00, 0xE0] = .ok (.cls, []) := by decide
theorem test_decode_ret : decode [0x00, 0xEE] = .ok (.ret, []) := by decide
theorem test_decode_jp : decode [0x1A, 0xBC] = .ok (.jp 0xABC, []) := by decide
theorem test_decode_call : decode [0x2F, 0xFF] = .ok (.call 0xFFF, []) := by decide
theorem test_decode_seImm : decode [0x3A, 0x7F] = .ok (.seImm 10 0x7F, []) := by decide
theorem test_decode_sneImm : decode [0x4B, 0x81] = .ok (.sneImm 11 0x81, []) := by decide
theorem test_decode_seReg : decode [0x5A, 0xB0] = .ok (.seReg 10 11, []) := by decide
theorem test_decode_ldImm : decode [0x61, 0x05] = .ok (.ldImm 1 0x05, []) := by decide
theorem test_decode_addImm : decode [0x72, 0xFE] = .ok (.addImm 2 0xFE, []) := by decide
theorem test_decode_ldReg : decode [0x8A, 0xB0] = .ok (.ldReg 10 11, []) := by decide
theorem test_decode_orReg : decode [0x8A, 0xB1] = .ok (.orReg 10 11, []) := by decide
theorem test_decode_andReg : decode [0x8A, 0xB2] = .ok (.andReg 10 11, []) := by decide
theorem test_decode_xorReg : decode [0x8A, 0xB3] = .ok (.xorReg 10 11, []) := by decide
theorem test_decode_addReg : decode [0x8A, 0xB4] = .ok (.addReg 10 11, []) := by decide
theorem test_decode_subReg : decode [0x8A, 0xB5] = .ok (.subReg 10 11, []) := by decide
theorem test_decode_shr : decode [0x8A, 0xB6] = .ok (.shr 10 11, []) := by decide
theorem test_decode_subnReg : decode [0x8A, 0xB7] = .ok (.subnReg 10 11, []) := by decide
theorem test_decode_shl : decode [0x8A, 0xBE] = .ok (.shl 10 11, []) := by decide
theorem test_decode_sneReg : decode [0x9A, 0xB0] = .ok (.sneReg 10 11, []) := by decide
theorem test_decode_ldI : decode [0xA1, 0x23] = .ok (.ldI 0x123, []) := by decide
theorem test_decode_jpV0 : decode [0xBF, 0x01] = .ok (.jpV0 0xF01, []) := by decide
theorem test_decode_rnd : decode [0xC3, 0x0F] = .ok (.rnd 3 0x0F, []) := by decide
theorem test_decode_drw : decode [0xD1, 0x2F] = .ok (.drw 1 2 15, []) := by decide
theorem test_decode_skp : decode [0xE1, 0x9E] = .ok (.skp 1, []) := by decide
theorem test_decode_sknp : decode [0xE5, 0xA1] = .ok (.sknp 5, []) := by decide
theorem test_decode_ldVxDt : decode [0xF3, 0x07] = .ok (.ldVxDt 3, []) := by decide
theorem test_decode_ldVxK : decode [0xF2, 0x0A] = .ok (.ldVxK 2, []) := by decide
theorem test_decode_ldDtVx : decode [0xF4, 0x15] = .ok (.ldDtVx 4, []) := by decide
theorem test_decode_ldStVx : decode [0xF5, 0x18] = .ok (.ldStVx 5, []) := by decide
theorem test_decode_addI : decode [0xF6, 0x1E] = .ok (.addI 6, []) := by decide
theorem test_decode_ldF : decode [0xF7, 0x29] = .ok (.ldF 7, []) := by decide
theorem test_decode_ldB : decode [0xF8, 0x33] = .ok (.ldB 8, []) := by decide
theorem test_decode_storeRegs : decode [0xF9, 0x55] = .ok (.storeRegs 9, []) := by decide
theorem test_decode_loadRegs : decode [0xFE, 0x65] = .ok (.loadRegs 14, []) := by decide

/-- The bytes after the instruction are left (R80). -/
theorem test_decode_rest : decode [0x00, 0xE0, 0xA2, 0x06] = .ok (.cls, [0xA2, 0x06]) := by decide

/-- One byte is no instruction (R80). -/
theorem test_decode_one_byte : decode [0x12] = .error .truncated := by decide

/-- The table numbers bit 0 as the least significant bit of the word. -/
theorem test_tableWord : decodeTableWord 16 0xD12F = some (.drw 1 2 15) := by decide

/-! ### WellFormed: what cannot be an instruction. The field types leave no ill-formed term; words can be ill formed (R87). -/

/-- Every illegal word 95_test_vectors.md section 2.1 lists. -/
def illWords : List Word :=
  [0x0000, 0x00E1, 0x00FE, 0x0123, 0x5121, 0x9AB1, 0x8128, 0x812D, 0x812F, 0xE19F, 0xE1A0, 0xE100, 0xF100, 0xF108, 0xF11F, 0xF175,
   0xF1FF]

/-- The map of masks refuses each of them: a term for each part of the check to refuse. -/
theorem test_ill_formed_words : illWords.all (fun w => !wordWellFormed w) = true := by decide

/-- The decoder refuses the same words, by name. -/
theorem test_illegal_words_refused : illWords.map decodeWord = illWords.map (fun w => .error (.illegal w)) := by decide

/-- Each row of the map selects its own pattern, and no pattern is selected by two rows. -/
theorem test_rows_select_apart :
    opcodeMap.Pairwise fun r q => r.pattern &&& (r.mask &&& q.mask) ≠ q.pattern &&& (r.mask &&& q.mask) := by decide

/-- The map has the table's 34 rows (R86). -/
theorem test_rows_count : opcodeMap.length = 34 := by decide

/-! ### Flow (95_test_vectors.md section 2.2) -/

theorem test_cls : after (fun t => (getPixel t.fb 10 5, t.pc, t.redraw)) 0x00E0
    { State.reset with fb := setPixel blankScreen 10 5 true, redraw := true } = some (false, 0x202, false) := by decide
theorem test_ret : after (fun t => (t.sp, t.pc)) 0x00EE
    { State.reset with pc := 0x300, sp := 1, stack := Vector.replicate 16 0x0FFE } = some (0, 0xFFE) := by decide
theorem test_ret_underflow : after (·.status) 0x00EE State.reset = some (.faulted .stackUnderflow) := by decide
theorem test_jp : after (·.pc) 0x1300 State.reset = some 0x300 := by decide
theorem test_call : after (fun t => (t.stack[0], t.sp, t.pc)) 0x2300 State.reset = some (0x202, 1, 0x300) := by decide
theorem test_call_overflow : after (·.status) 0x2300 { State.reset with sp := 16 } = some (.faulted .stackOverflow) := by decide

/-! ### Skips (section 2.3) -/

theorem test_seImm_taken : after (·.pc) 0x3142 (reg 1 0x42) = some 0x204 := by decide
theorem test_seImm_not_taken : after (·.pc) 0x3142 (reg 1 0x43) = some 0x202 := by decide
theorem test_sneImm_taken : after (·.pc) 0x4142 (reg 1 0x43) = some 0x204 := by decide
theorem test_sneImm_not_taken : after (·.pc) 0x4142 (reg 1 0x42) = some 0x202 := by decide
theorem test_seReg_taken : after (·.pc) 0x5120 (reg2 1 9 2 9) = some 0x204 := by decide
theorem test_seReg_not_taken : after (·.pc) 0x5120 (reg2 1 9 2 8) = some 0x202 := by decide
theorem test_sneReg_taken : after (·.pc) 0x9120 (reg2 1 9 2 8) = some 0x204 := by decide
theorem test_sneReg_not_taken : after (·.pc) 0x9120 (reg2 1 9 2 9) = some 0x202 := by decide

/-! ### Load and ALU (sections 2.4 and 2.5) -/

theorem test_ldImm : after (getV · 15) 0x6F07 State.reset = some 0x07 := by decide
theorem test_addImm_wraps : after (pair 1 15) 0x7101 (reg 1 0xFF) = some (0x00, 0) := by decide
theorem test_addImm_vf : after (getV · 15) 0x7F03 (reg 15 0xFE) = some 0x01 := by decide
theorem test_ldReg : after (getV · 1) 0x8120 (reg 2 0x33) = some 0x33 := by decide
theorem test_orReg_keeps_vf : after (pair 1 15) 0x8121 (setV (reg2 1 0xF0 2 0x0F) 15 1) = some (0xFF, 1) := by decide
theorem test_andReg : after (getV · 1) 0x8122 (reg2 1 0xF0 2 0x3C) = some 0x30 := by decide
theorem test_xorReg : after (getV · 1) 0x8123 (reg2 1 0xFF 2 0x0F) = some 0xF0 := by decide
theorem test_addReg_carry : after (pair 1 15) 0x8124 (reg2 1 0xFF 2 0x01) = some (0x00, 1) := by decide
theorem test_addReg_into_vf : after (getV · 15) 0x8F14 (reg2 15 0x10 1 0x20) = some 0 := by decide
theorem test_subReg_borrow : after (pair 1 15) 0x8125 (reg2 1 0x03 2 0x05) = some (0xFE, 0) := by decide
theorem test_subReg_equal : after (pair 1 15) 0x8125 (reg2 1 0x07 2 0x07) = some (0x00, 1) := by decide
theorem test_subnReg : after (pair 1 15) 0x8127 (reg2 1 0x03 2 0x05) = some (0x02, 1) := by decide
theorem test_subnReg_borrow : after (pair 1 15) 0x8127 (reg2 1 0x05 2 0x03) = some (0xFE, 0) := by decide
theorem test_shr_ignores_y : after (pair 3 15) 0x8346 (reg2 3 0x05 4 0xF0) = some (0x02, 1) := by decide
theorem test_shr_vf : after (getV · 15) 0x8F06 (reg 15 0x02) = some 0 := by decide
theorem test_shl : after (pair 3 15) 0x830E (reg 3 0x81) = some (0x02, 1) := by decide
theorem test_shl_vf : after (getV · 15) 0x8F0E (reg 15 0x7F) = some 0 := by decide

/-! ### Index, jump, random (section 2.6) -/

theorem test_ldI : after (·.i) 0xAFFF State.reset = some 0xFFF := by decide
theorem test_jpV0 : after (·.pc) 0xB300 (reg2 0 0x02 3 0x40) = some 0x302 := by decide
theorem test_jpV0_not_reduced : after (·.pc) 0xBFFF (reg 0 0xFF) = some 0x10FE := by decide

/-- Whatever byte is drawn, `kk = 0` gives 0. -/
theorem test_rnd_zero : execRnd 3 0x00 (reg 3 0x40) = .next { State.reset with draws := 1 } := by
  simp [execRnd, drawByte, reg]
  decide

/-! ### Draw (section 2.7) -/

theorem test_drw_wraps : after (fun t => (litInRow 0 t, getV t 15, t.redraw)) 0xD011
    { reg 0 60 with i := 0x300, mem := [(0x300, 0xFF)] } = some ([0, 1, 2, 3, 60, 61, 62, 63], 0, true) := by decide
theorem test_drw_collision : after (fun t => (litInRow 0 t, getV t 15)) 0xD011
    { State.reset with i := 0x300, mem := [(0x300, 0xC0)], fb := setPixel blankScreen 1 0 true } = some ([0], 1) := by decide

/-! ### Keypad and timers (section 2.8) -/

theorem test_skp : after (·.pc) 0xE59E { reg 5 0x0A with keys := keypad [10] } = some 0x204 := by decide
theorem test_skp_no_such_key : after (·.status) 0xE59E (reg 5 0x10) = some (.faulted (.keyIndex 0x10)) := by decide
theorem test_sknp : after (·.pc) 0xE5A1 { reg 5 0x0A with keys := keypad [10] } = some 0x202 := by decide
theorem test_sknp_up : after (·.pc) 0xE5A1 (reg 5 0x0A) = some 0x204 := by decide
theorem test_ldVxDt : after (getV · 3) 0xF307 { State.reset with dt := 0x2A } = some 0x2A := by decide
theorem test_ldDtVx : after (·.dt) 0xF315 (reg 3 0x3C) = some 0x3C := by decide
theorem test_ldStVx : after (fun t => (t.st, t.sound, beep t)) 0xF318 (reg 3 5) = some (5, true, true) := by decide
theorem test_ldStVx_zero : after (fun t => (t.st, t.sound, beep t)) 0xF318 { State.reset with st := 9 } = some (0, false, false) := by
  decide
theorem test_ldVxK_waits : after (·.pc) 0xF20A { State.reset with pc := 0x20A } = some 0x20A := by decide
theorem test_ldVxK_lowest : after (fun t => (getV t 2, t.pc)) 0xF20A
    { State.reset with pc := 0x20A, keys := keypad [7, 9] } = some (7, 0x20C) := by decide

/-! ### Index and memory (section 2.9) -/

theorem test_addI_wraps : after (·.i) 0xF11E { reg 1 0xFF with i := 0xFFE } = some 0x0FD := by decide

/-- Low nibble only, for every `FONT_BASE`: 0x1A is glyph 10, 50 bytes above the base. -/
theorem test_ldF : execLdF 0 (reg 0 0x1A) = .next { reg 0 0x1A with i := BitVec.ofNat 16 (Config.fontBase + 50) } := rfl

theorem test_ldB : after (fun t => (t.mem.get 0x300, t.mem.get 0x301, t.mem.get 0x302)) 0xF033
    { reg 0 205 with i := 0x300 } = some (2, 0, 5) := by decide
theorem test_ldB_beyond : after (·.status) 0xF033 { State.reset with i := 0xFFE } = some (.faulted (.memoryBounds 0x1000)) := by
  decide
theorem test_storeRegs : after (fun t => ((List.range 4).map (t.mem.get <| 0x400 + ·), t.i)) 0xF255
    { setV (reg2 0 0x11 1 0x22) 2 0x33 with i := 0x400 } = some ([0x11, 0x22, 0x33, 0], 0x400) := by decide
theorem test_loadRegs : after (fun t => (pair 0 1 t, pair 2 3 t, t.i)) 0xF265
    { reg 3 0x77 with i := 0x300, mem := [(0x300, 2), (0x302, 5)] } = some ((2, 0), (5, 0x77), 0x300) := by decide
theorem test_loadRegs_beyond : after (·.status) 0xF165 { State.reset with i := 0xFFF } = some (.faulted (.memoryBounds 0x1000)) := by
  decide

/-! ### Fetch, faults, reset, the driver (sections 2.8 and 2.10) -/

/-- The first step from the bare reset state fetches 0x0000 at 0x200. -/
theorem test_empty_rom : shown (·.status) (step State.reset) =
    some (.faulted (.illegalInstruction 0x0000 0x200)) := by decide

/-- `PC` = 0xFFF: the second byte of the fetch is out of bounds. -/
theorem test_fetch_edge : shown (·.status) (step { State.reset with pc := 0xFFF }) =
    some (.faulted (.memoryBounds 0x1000)) := by decide

/-- An odd `PC` is legal. -/
theorem test_odd_pc : after (fun t => (getV t 10, t.pc)) 0x6A55 { State.reset with pc := 0x201 } = some (0x55, 0x203) := by decide

/-- A ROM of one byte, 0x12: the word {0x12, 0x00} is fetched, a jump to itself. -/
theorem test_one_byte_rom :
    shown (·.pc) (step (initCore [0x12] State.reset)) = some 0x200 := by decide

/-- A step flag lives until the next step (0x6000). -/
theorem test_redraw_cleared : after (·.redraw) 0x6000 { State.reset with redraw := true } = some false := by decide

/-- DT = 3, ST = 1, one tick. -/
theorem test_tick : let t := tickTimers { State.reset with dt := 3, st := 1 }
    (t.dt, t.st, beep t) = (2, 0, false) := by decide

/-- Timers at zero stay there. -/
theorem test_tick_zero : let t := tickTimers State.reset
    (t.dt, t.st) = (0, 0) := by decide

/-! ### Witnesses: for each statement with hypotheses, named `witness_<statement>`, data that meets them, at the boundary of each
clause -/

/-- A legal state at the edges: `I` = 0xFFF, a full stack of the highest return address, `CLS` stored at `PC`. -/
def edge : State :=
  { State.reset with i := 0xFFF, sp := 16, stack := Vector.replicate 16 0x1000, mem := [(0x201, 0xE0)] }

theorem edge_legal : edge.Legal where
  mem_wf := by decide
  registers _ := ⟨by decide, by decide, by decide, fun j h _ => by simp [edge]⟩

/-- A faulted core. -/
def broken : State := { State.reset with status := .faulted .stackUnderflow }

/-- A core about to run `CALL 0x204` at 0x200, with `RET` at 0x204. -/
def callReturn : State := { State.reset with sp := 15, mem := [(0x200, 0x22), (0x201, 0x04), (0x205, 0xEE)] }

/-- A core whose program is the one word `hi lo` at 0x200. -/
def withWord (hi lo : Byte) (s : State) : State := { s with mem := (Memory.put [] 0x200 hi).put 0x201 lo }

theorem witness_EncodeInvertsDecode : decodeWord 0x8AB6 = .ok (.shr 10 11) := by decide

theorem witness_DecodeFollowsTheOpcodeMap :
    opcodeMap.any (fun r => 0x8AB6 &&& r.mask == r.pattern) = true ∧
    opcodeMap.all (fun r => 0x8AB8 &&& r.mask != r.pattern) = true := by decide

theorem witness_FetchIsBigEndianAndBounded :
    let at_ (a : Word) : State := { State.reset with pc := a }
    (at_ 0xFFE).pc.toNat ≤ 0xFFE ∧ (at_ 0xFFF).pc.toNat = 0xFFF ∧ 0xFFF < (at_ 0x1000).pc.toNat := by decide

theorem witness_StepRunsTheDecodedInstruction :
    let s : State := { State.reset with pc := 0xFFE, mem := [(0xFFE, 0x60), (0xFFF, 0x01)] }
    s.status = .running ∧ s.pc.toNat ≤ 0xFFE ∧
      decode [s.mem.get s.pc.toNat, s.mem.get (s.pc.toNat + 1)] = .ok (.ldImm 0 1, []) := by decide

theorem witness_FetchAndDecodeFaults :
    let s : State := { State.reset with pc := 0xFFF }
    let u : State := { State.reset with pc := 0xFFE, mem := [(0xFFE, 0x51), (0xFFF, 0x21)] }
    (s.status = .running ∧ 0xFFE < s.pc.toNat) ∧
    u.status = .running ∧ u.pc.toNat ≤ 0xFFE ∧
      (0x5121 : Word).toNat = (u.mem.get u.pc.toNat).toNat * 256 + (u.mem.get (u.pc.toNat + 1)).toNat ∧
      opcodeMap.all (fun r => 0x5121 &&& r.mask != r.pattern) = true := by decide

theorem witness_ARunningCoreAlwaysSteps : edge.Legal ∧ edge.status = .running := ⟨edge_legal, rfl⟩

theorem witness_OnlyInitLeavesAFault :
    broken.status = .faulted .stackUnderflow ∧ (List.replicate 3584 (0 : Byte)).length ≤ 3584 ∧
    perform (.init []) broken = .next (initCore [] broken) ∧ (initCore [] broken).status ≠ .faulted .stackUnderflow :=
  ⟨rfl, List.length_replicate.le, rfl, by decide⟩

/-- One instruction of each kind that raises, on a state where it does. -/
theorem witness_EachInstructionRaisesOnlyItsCauses :
    let low : State := { State.reset with i := 0xFFE }
    shown (·.status) (exec .ret State.reset) = some (.faulted .stackUnderflow) ∧
    shown (·.status) (exec (.call 0) edge) = some (.faulted .stackOverflow) ∧
    shown (·.status) (exec (.skp 5) (reg 5 0x10)) = some (.faulted (.keyIndex 0x10)) ∧
    shown (·.status) (exec (.sknp 5) (reg 5 0x10)) = some (.faulted (.keyIndex 0x10)) ∧
    shown (·.status) (exec (.drw 0 1 3) low) = some (.faulted (.memoryBounds 0x1000)) ∧
    shown (·.status) (exec (.ldB 0) low) = some (.faulted (.memoryBounds 0x1000)) ∧
    shown (·.status) (exec (.storeRegs 2) low) = some (.faulted (.memoryBounds 0x1000)) ∧
    shown (·.status) (exec (.loadRegs 2) low) = some (.faulted (.memoryBounds 0x1000)) := by decide

theorem witness_StepKeepsLegal : edge.Legal ∧ (shown (·.pc) (step edge)) = some 0x202 := ⟨edge_legal, by decide⟩

theorem witness_EveryScheduleKeepsLegal :
    edge.Legal ∧ shown (·.dt) (performAll [.writeKeypad (keypad [7]), .step, .tickTimers, .snapshot] edge) = some 0 :=
  ⟨edge_legal, by decide⟩

theorem witness_CanonicalMemoryIsUnique :
    let m : Memory := [(0x300, 7)]
    let m' : Memory := ((Memory.put [] 0x301 9).put 0x300 7).put 0x301 0
    m.wf = true ∧ m'.wf = true ∧ ∀ a < 4096, m.get a = m'.get a := ⟨by decide, by decide, fun _ _ => rfl⟩

theorem witness_WriteSetsOneByte : Memory.wf [(0xFFF, 7)] = true ∧ 0xFFF < 0x1000 ∧ 0xFFF ≤ 0xFFF := by decide

/-- The longest legal ROM and the empty one, for `InitResetsEveryRegister`, `InitMemoryImage` and `FirstFetchReadsTheRom`. -/
theorem witness_Init : (List.replicate 3584 (0xFF : Byte)).length ≤ 3584 ∧ ([] : List Byte).length ≤ 3584 :=
  ⟨List.length_replicate.le, by decide⟩

theorem witness_InitRejectsALongRom : 3584 < (List.replicate 3585 (0xFF : Byte)).length := List.length_replicate.ge

theorem witness_RetPopsOrUnderflows :
    State.reset.sp.toNat = 0 ∧ ({ State.reset with sp := 1 } : State).sp.toNat = 0 + 1 ∧ edge.sp.toNat = 15 + 1 := by decide

theorem witness_CallPushesAndJumps : callReturn.sp.toNat < 16 ∧ State.reset.sp.toNat < 16 := by decide

theorem witness_CallOverflowsAtSixteen : edge.sp.toNat = 16 := by decide

theorem witness_CallThenReturnRoundTrip :
    callReturn.status = .running ∧ callReturn.sp.toNat < 16 ∧ fetchInstr callReturn = .ok (.call 0x204) ∧
    fetchInstr { callReturn with pc := (0x204 : Addr12).setWidth 16 } = .ok .ret := by decide

/-- A skip that is taken, one that is not, and the two keypad skips at key 15. -/
theorem witness_TakenSkipAdvancesByFour :
    let s := withWord 0x31 0x42 (reg 1 0x42)
    let u := withWord 0x41 0x42 (reg 1 0x42)
    let k := withWord 0xE5 0x9E { reg 5 0x0F with keys := keypad [15] }
    let k' := withWord 0xE5 0xA1 { reg 5 0x0F with keys := keypad [15] }
    (s.status = .running ∧ fetchInstr s = .ok (.seImm 1 0x42) ∧ skipCondition (.seImm 1 0x42) s = some true) ∧
    (u.status = .running ∧ fetchInstr u = .ok (.sneImm 1 0x42) ∧ skipCondition (.sneImm 1 0x42) u = some false) ∧
    (k.status = .running ∧ fetchInstr k = .ok (.skp 5) ∧ skipCondition (.skp 5) k = some true) ∧
    (k'.status = .running ∧ fetchInstr k' = .ok (.sknp 5) ∧ skipCondition (.sknp 5) k' = some false) := by decide

/-- `n` = 0 with `I` at the end, and a sprite whose last byte is the last byte of memory. -/
theorem witness_DrawXorsTheSprite :
    ((0 : Nibble).toNat = 0) ∧ ({ State.reset with i := 0xFF1 } : State).i.toNat + (15 : Nibble).toNat ≤ 4096 ∧
    (let s : State := { State.reset with i := 0xFFF, mem := [(0xFFF, 0x80)], fb := setPixel blankScreen 0 0 true }
     getPixel s.fb 0 0 = true ∧ spriteBit s.mem s.i.toNat 1 0 0 0 0 = true ∧ spriteBit s.mem s.i.toNat 1 0 0 1 0 = false) := by decide

/-- With x = 15, y = 14 apart from 15, a clear screen, a set row and a row of zeros. -/
theorem witness_DrawingTwiceRestoresTheScreen :
    let s : State := { State.reset with i := 0xFFF, mem := [(0xFFF, 0x80)] }
    let z : State := { State.reset with i := 0xFFF }
    (0 : Nibble) ≠ 15 ∧ (14 : Nibble) ≠ 15 ∧ s.i.toNat + (1 : Nibble).toNat ≤ 4096 ∧
    s.fb = blankScreen ∧ (∃ row < (1 : Nibble).toNat, s.mem.get (s.i.toNat + row) ≠ 0) ∧
    z.fb = blankScreen ∧ (∀ row < (1 : Nibble).toNat, z.mem.get (z.i.toNat + row) = 0) := by decide

/-- x = 14 is no flag register, and neither is another register 0, for the statements on `ADD`, `SUB`, `SUBN`, `SHR` and `SHL`. -/
theorem witness_FlagResults : (14 : Nibble) ≠ 15 ∧ (0 : Nibble) ≠ 14 ∧ (0 : Nibble) ≠ 15 := by decide

theorem witness_KeypadSkips :
    (getV (reg 5 0x0F) 5).toNat = (15 : Nibble).toNat ∧ (getV (reg 5 0x00) 5).toNat = (0 : Nibble).toNat ∧
    15 < (getV (reg 5 0x10) 5).toNat := by decide

theorem witness_KeyWaitTakesTheLowestKey :
    let s : State := { State.reset with keys := keypad [7, 15] }
    let u : State := { State.reset with keys := keypad [15] }
    (keyDown s 7 = true ∧ ∀ j : Nibble, j.toNat < (7 : Nibble).toNat → keyDown s j = false) ∧
    (keyDown u 15 = true ∧ ∀ j : Nibble, j.toNat < (15 : Nibble).toNat → keyDown u j = false) ∧
    (∀ k : Nibble, keyDown State.reset k = false) := by decide

theorem witness_WaitingStepChangesNothing :
    let s := withWord 0xF2 0x0A State.reset
    s.status = .running ∧ fetchInstr s = .ok (.ldVxK 2) ∧ ∀ k : Nibble, keyDown s k = false := by decide

theorem witness_BcdStoresThreeDigits :
    edge.mem.wf = true ∧ ({ edge with i := 0xFFD } : State).i.toNat ≤ 0xFFD ∧ 0xFFD < ({ edge with i := 0xFFE } : State).i.toNat := by
  decide

/-- For the two bulk transfers and their round trip: the last register at the last byte of memory. -/
theorem witness_BulkTransfers :
    edge.mem.wf = true ∧ ({ edge with i := 0xFF0 } : State).i.toNat + (15 : Nibble).toNat ≤ 0xFFF ∧
    edge.i.toNat + (0 : Nibble).toNat ≤ 0xFFF := by decide

theorem witness_DataAccessBeyondMemoryFaults :
    (1 ≤ (2 : Nibble).toNat ∧ 0xFFF < edge.i.toNat + (2 : Nibble).toNat - 1) ∧ 0xFFF < edge.i.toNat + (1 : Nibble).toNat := by decide

/-- `ADD V1, V2` ends running and does not write `V0`. -/
theorem witness_RegisterFrame :
    shown (·.status) (exec (.addReg 1 2) edge) = some .running ∧ writesV (.addReg 1 2) 0 = false := by decide

theorem witness_MemoryFrame :
    let s : State := { edge with i := 0xFFD }
    (shown (·.status) (exec (.loadRegs 0) s) = some .running ∧ ¬storesMemory (.loadRegs 0)) ∧
    (shown (·.status) (exec (.ldB 1) s) = some .running ∧ s.mem.wf = true ∧ 0xFFC < s.i.toNat ∧ s.i.toNat + 3 ≤ 0x1000) ∧
    (shown (·.status) (exec (.storeRegs 1) s) = some .running ∧ s.mem.wf = true ∧ 0xFFC < s.i.toNat ∧
      s.i.toNat + (1 : Nibble).toNat < 0xFFF) :=
  ⟨⟨by decide, by simp [storesMemory]⟩, by decide, by decide⟩

theorem witness_ScreenFrame :
    shown (·.status) (exec (.ldF 0) edge) = some .running ∧ ¬changesScreen (.ldF 0) := ⟨by decide, by simp [changesScreen]⟩

theorem witness_SpecialStateFrame :
    shown (·.status) (exec .cls edge) = some .running ∧ ¬writesI .cls ∧ ¬usesStack .cls ∧ (∀ x, Instr.cls ≠ .ldDtVx x) ∧
    (∀ x, Instr.cls ≠ .ldStVx x) ∧ (∀ x kk, Instr.cls ≠ .rnd x kk) :=
  ⟨by decide, by simp [writesI], by simp [usesStack], by simp, by simp, by simp⟩

theorem witness_StepFlagsSayWhatRan :
    let s := withWord 0xF3 0x18 (reg 3 5)
    let u := withWord 0xD0 0x10 { State.reset with i := 0xFFF }
    (s.status = .running ∧ fetchInstr s = .ok (.ldStVx 3) ∧ shown (·.status) (step s) = some .running) ∧
    (u.status = .running ∧ fetchInstr u = .ok (.drw 0 1 0) ∧ shown (·.status) (step u) = some .running) := by decide

/-- DT = 2 and three ticks: the third finds it at 0. The jump to itself at 0x200 runs in between. -/
theorem witness_DelayTimerCountsTicksOnly :
    let s := withWord 0x12 0x00 { State.reset with dt := 2 }
    let ops : List DriverOp := [.tickTimers, .step, .tickTimers, .tickTimers]
    SafeSchedule ops s ∧ NoDelayLoad ops s ∧ shown (·.dt) (performAll ops s) = some 0 := by
  refine ⟨⟨rfl, _, rfl, rfl, _, rfl, rfl, _, rfl, rfl, _, rfl, rfl⟩, ?_, by decide⟩
  have hf : fetchInstr (tickTimers (withWord 0x12 0x00 { State.reset with dt := 2 })) = .ok (.jp 0x200) := by decide
  refine ⟨by simp, by simp, fun t ht => ?_⟩
  cases ht
  refine ⟨by simp, fun _ x h => (by rw [hf] at h; cases h), fun t _ => ?_⟩
  exact ⟨by simp, by simp, fun t _ => ⟨by simp, by simp, fun _ _ => trivial⟩⟩

/-- The last pixel, the last byte and the last key: indices in range. -/
theorem witness_Indices : 63 < 64 ∧ 31 < 32 ∧ 4095 < 4096 ∧ 15 < 16 := by decide

end Sys2Proof.Tests
end

section
/-! SUPPORT. Proofs of the statements on memory (spec/20_memory.md). -/

namespace Sys2Proof.Machine

/-- Settles O15 (R53): out of bounds `writeByte` raises; in bounds it answers `m.put addr b`, whose canonical form and whose
bytes are known. -/
theorem writeSetsOneByte : Obligations.WriteSetsOneByte := by
  intro m addr b hm
  constructor
  · intro hout
    exact writeByte_error hout
  · intro hin
    have haddr : addr < 4096 := Nat.lt_succ_of_le hin
    exact ⟨m.put addr b, writeByte_ok haddr, Memory.put_wf haddr hm, fun a => Memory.get_put hm addr a b⟩

end Sys2Proof.Machine
end

section
/-! SUPPORT. Proofs of the statements on the step cycle (spec/40_step_cycle.md). -/

namespace Sys2Proof.Machine

/-- Settles O5 (R55, R102): up to 0xFFE both bytes are read and joined big-endian; beyond, the first address outside memory is
the larger of `PC` and 0x1000. -/
theorem fetchIsBigEndianAndBounded : Obligations.FetchIsBigEndianAndBounded := by
  intro s
  refine ⟨fun hin => ?_, fun hlast => ?_, fun hout => ?_⟩
  · exact ⟨_, fetchWord_ok hin, wordOfBytes_toNat _ _⟩
  · rw [fetchWord_error (by omega), hlast]
    rfl
  · rw [fetchWord_error (by omega), Nat.max_eq_left hout]

end Sys2Proof.Machine
end

section
/-! SUPPORT. Proofs of the statements on the driver's operations (spec/48_host_operations.md). -/

namespace Sys2Proof.Machine

/-- R205: the dump holds one byte per address. -/
@[simp] theorem length_dumpMemory (s : State) : (dumpMemory s).length = Config.memSize := by
  simp [dumpMemory]

/-- R205: the dump is in ascending address order, so its index is the address. -/
theorem dumpMemory_getElem? (s : State) {a : Nat} (ha : a < Config.memSize) : (dumpMemory s)[a]? = some (s.mem.get a) := by
  rw [dumpMemory, List.getElem?_map, List.getElem?_range ha, Option.map_some]

/-- Settles O59 (R205): one byte per address, at the index that is its address; to perform the read gives the state back. -/
theorem dumpMemoryReturnsEveryByte : Obligations.DumpMemoryReturnsEveryByte := by
  intro s
  refine ⟨length_dumpMemory s, fun a ha => ?_, ?_⟩
  · exact dumpMemory_getElem? s ha
  · rfl

end Sys2Proof.Machine
end

section
/-! SUPPORT. Proofs of the statements on the fault causes (spec/60_exceptions.md). -/

namespace Sys2Proof.Machine

/-- R222: a ROM that does not fit takes `ConfigError` with its length, and nothing is loaded. -/
theorem initCore_of_too_long {rom : List Byte} (h : Config.romMax < rom.length) (s : State) :
    initCore rom s = raise (.configError rom.length) s := by
  rw [initCore, if_pos h]

/-- Settles O19 (R222): `Init` takes the fault, which latches the status, and a faulted core takes no step. -/
theorem initRejectsALongRom : Obligations.InitRejectsALongRom := by
  intro rom s hlong
  have hstatus : (initCore rom s).status = .faulted (.configError rom.length) := by
    rw [initCore_of_too_long hlong, raise_status]
  exact ⟨hstatus, step_faulted hstatus⟩

/-- R105: `CALL` means `execCall`. -/
theorem exec_call (nnn : Addr12) (s : State) : exec (.call nnn) s = execCall nnn s := rfl

/-- Settles O24 (R225): of the three answers of `CALL`, the push needs `SP` below 16 and the missing entry `SP` above 16. -/
theorem callOverflowsAtSixteen : Obligations.CallOverflowsAtSixteen := by
  intro s nnn hsp
  rw [exec_call]
  obtain ⟨-, hover⟩ | ⟨hbelow, -⟩ | ⟨habove, -⟩ := execCall_cases nnn s
  · exact ⟨_, hover, raise_status s .stackOverflow⟩
  · omega
  · omega

end Sys2Proof.Machine
end

section
/-! SUPPORT. Proofs of the statements on reset (spec/70_reset_and_hazards.md). -/

namespace Sys2Proof.Machine

/-- R250: a ROM that fits leaves the reset state with the ROM copied to 0x200; the draw counter is the model's own (log 1). -/
theorem initCore_of_fits {rom : List Byte} (h : rom.length ≤ Config.romMax) (s : State) :
    initCore rom s = { State.reset with mem := State.reset.mem.load Config.progBase rom, draws := s.draws } := by
  rw [initCore, if_neg (Nat.not_lt.2 h)]

/-- R252: after `Init` an address inside the ROM reads its byte, and every other address reads its reset content. -/
theorem initCore_mem_get {rom : List Byte} (h : rom.length ≤ Config.romMax) (s : State) (a : Nat) :
    (initCore rom s).mem.get a =
      if ha : 0x200 ≤ a ∧ a < 0x200 + rom.length then rom[a - 0x200]'(by omega) else Memory.unlisted a := by
  have hfits : Config.progBase + rom.length ≤ 4096 := by
    simp only [Config.progBase, Config.romMax] at h ⊢
    omega
  rw [initCore_of_fits h]
  exact (Memory.load_spec hfits Memory.wf_reset).2 a

/-- Settles O17 (R252): the copy loop writes the ROM's own addresses and no others, and the reset content under it has the font
below 0x200 and zero elsewhere. -/
theorem initMemoryImage : Obligations.InitMemoryImage := by
  intro rom s hrom
  have hfont := Config.fontBase_le
  refine ⟨hfont, fun j hj => ?rom, fun j => ?font, fun a hnotFont hnotRom => ?zero, ?pc⟩
  case rom =>
    rw [initCore_mem_get hrom, dif_pos (by omega)]
    simp
  case font =>
    have hj := j.isLt
    rw [initCore_mem_get hrom, dif_neg (by omega), Memory.unlisted_font]
  case zero =>
    rw [initCore_mem_get hrom, dif_neg (by omega), Memory.unlisted_zero hnotFont]
  case pc =>
    rw [initCore_of_fits hrom]
    rfl

end Sys2Proof.Machine
end

section
/-! SUPPORT. Proofs of the statements on the encoding (spec/30_encoding.md): the decoder undoes the encoder, every legal word is
the encoding of its instruction, and the decoder follows the map of masks and matches. -/

namespace Sys2Proof

/-! ### The encoder, then the decoder -/

/-- Decoding the word of an instruction gives it back: within one format the family, and below it the selector, leads the
dispatch to the instruction's own row (R84, R85). -/
theorem decodeWord_encode (i : Instr) : decodeWord (encode i) = .ok i := by
  cases i
  case cls | ret => rfl
  case jp | call | ldI | jpV0 => simp [encode, decodeWord]
  case seImm | sneImm | ldImm | addImm | rnd => simp [encode, decodeWord]
  case seReg | sneReg | drw => simp [encode, decodeWord, decodeFamily5, decodeFamily9]
  case ldReg | orReg | andReg | xorReg | addReg | subReg | shr | subnReg | shl =>
    simp [encode, decodeWord, decodeFamily8]
  case skp | sknp => simp [encode, decodeWord, decodeFamilyE]
  case ldVxDt | ldVxK | ldDtVx | ldStVx | addI | ldF | ldB | storeRegs | loadRegs =>
    simp [encode, decodeWord, decodeFamilyF]

/-- Settles O1: the bytes make the encoded word again, and that word decodes to the instruction. -/
theorem decodeInvertsEncode : Obligations.DecodeInvertsEncode := by
  intro i rest
  simp [encodeBytes, bytesOfWord, decode, decodeWord_encode]

/-- Settles O4: the eight words are decoded by evaluation. -/
theorem specWordsDecode : Obligations.SpecWordsDecode := by
  unfold Obligations.SpecWordsDecode
  decide

/-! ### The fields of a word determine it (R81) -/

theorem formatA_fields (op : Word) : formatA (fieldF op) (fieldNNN op) = op := by
  ext k hk
  rw [← BitVec.getLsbD_eq_getElem, getLsbD_formatA]
  split_ifs with h
  · simp [fieldNNN, h, BitVec.getLsbD_eq_getElem hk]
  · simp [fieldF, show k - 12 < 4 by omega, show 12 + (k - 12) = k by omega, BitVec.getLsbD_eq_getElem hk]

theorem formatXK_fields (op : Word) : formatXK (fieldF op) (fieldX op) (fieldKK op) = op := by
  ext k hk
  rw [← BitVec.getLsbD_eq_getElem, getLsbD_formatXK]
  split_ifs with h h'
  · simp [fieldKK, h, BitVec.getLsbD_eq_getElem hk]
  · simp [fieldX, show k - 8 < 4 by omega, show 8 + (k - 8) = k by omega, BitVec.getLsbD_eq_getElem hk]
  · simp [fieldF, show k - 12 < 4 by omega, show 12 + (k - 12) = k by omega, BitVec.getLsbD_eq_getElem hk]

theorem formatXYN_fields (op : Word) : formatXYN (fieldF op) (fieldX op) (fieldY op) (fieldN op) = op := by
  ext k hk
  rw [← BitVec.getLsbD_eq_getElem, getLsbD_formatXYN]
  split_ifs with h h' h''
  · simp [fieldN, h, BitVec.getLsbD_eq_getElem hk]
  · simp [fieldY, show k - 4 < 4 by omega, show 4 + (k - 4) = k by omega, BitVec.getLsbD_eq_getElem hk]
  · simp [fieldX, show k - 8 < 4 by omega, show 8 + (k - 8) = k by omega, BitVec.getLsbD_eq_getElem hk]
  · simp [fieldF, show k - 12 < 4 by omega, show 12 + (k - 12) = k by omega, BitVec.getLsbD_eq_getElem hk]

/-- A word of family `f` is the format A word of its own address field. -/
theorem formatA_eq {op : Word} {f : Nibble} (hf : fieldF op = f) : formatA f (fieldNNN op) = op := by
  rw [← hf, formatA_fields]

theorem formatXK_eq {op : Word} {f : Nibble} (hf : fieldF op = f) : formatXK f (fieldX op) (fieldKK op) = op := by
  rw [← hf, formatXK_fields]

/-- A word of family `f` and low byte `kk` is the format XK word of its own register field: formats E and X. -/
theorem formatXK_eq_selector {op : Word} {f : Nibble} {kk : Byte} (hf : fieldF op = f) (hkk : fieldKK op = kk) :
    formatXK f (fieldX op) kk = op := by
  rw [← hkk, formatXK_eq hf]

theorem formatXYN_eq {op : Word} {f : Nibble} (hf : fieldF op = f) :
    formatXYN f (fieldX op) (fieldY op) (fieldN op) = op := by
  rw [← hf, formatXYN_fields]

/-- A word of family `f` and low nibble `n` is the format XY word of its own two register fields. -/
theorem formatXYN_eq_selector {op : Word} {f n : Nibble} (hf : fieldF op = f) (hn : fieldN op = n) :
    formatXYN f (fieldX op) (fieldY op) n = op := by
  rw [← hn, formatXYN_eq hf]

/-! ### What the decoder can answer -/

/-- The decoder answers an instruction whose encoding is the word, or refuses the word by name. -/
def DecodesExactly (op : Word) (answer : Except DecodeError Instr) : Prop :=
  (∃ i, answer = .ok i ∧ encode i = op) ∨ answer = .error (.illegal op)

theorem DecodesExactly.ok {op : Word} {i : Instr} (h : encode i = op) : DecodesExactly op (.ok i) := .inl ⟨i, rfl, h⟩

theorem DecodesExactly.illegal (op : Word) : DecodesExactly op (.error (.illegal op)) := .inr rfl

theorem decodeFamily0_exact {op : Word} (hf : fieldF op = 0x0) : DecodesExactly op (decodeFamily0 op) := by
  unfold decodeFamily0
  split_ifs with hcls hret
  · exact .ok (by rw [← formatA_eq hf, hcls]; rfl)
  · exact .ok (by rw [← formatA_eq hf, hret]; rfl)
  · exact .illegal op

theorem decodeFamily5_exact {op : Word} (hf : fieldF op = 0x5) : DecodesExactly op (decodeFamily5 op) := by
  unfold decodeFamily5
  split_ifs with hn
  · exact .ok (formatXYN_eq_selector hf hn)
  · exact .illegal op

theorem decodeFamily8_exact {op : Word} (hf : fieldF op = 0x8) : DecodesExactly op (decodeFamily8 op) := by
  unfold decodeFamily8
  split
  case h_10 => exact .illegal op
  all_goals exact .ok (formatXYN_eq_selector hf ‹_›)

theorem decodeFamily9_exact {op : Word} (hf : fieldF op = 0x9) : DecodesExactly op (decodeFamily9 op) := by
  unfold decodeFamily9
  split_ifs with hn
  · exact .ok (formatXYN_eq_selector hf hn)
  · exact .illegal op

theorem decodeFamilyE_exact {op : Word} (hf : fieldF op = 0xE) : DecodesExactly op (decodeFamilyE op) := by
  unfold decodeFamilyE
  split
  case h_3 => exact .illegal op
  all_goals exact .ok (formatXK_eq_selector hf ‹_›)

theorem decodeFamilyF_exact {op : Word} (hf : fieldF op = 0xF) : DecodesExactly op (decodeFamilyF op) := by
  unfold decodeFamilyF
  split
  case h_10 => exact .illegal op
  all_goals exact .ok (formatXK_eq_selector hf ‹_›)

/-- One case per family nibble, in the order of the dispatch (R84). -/
theorem decodeWord_exact (op : Word) : DecodesExactly op (decodeWord op) := by
  unfold decodeWord
  split <;> rename_i hf
  · exact decodeFamily0_exact hf
  · exact .ok (formatA_eq hf)
  · exact .ok (formatA_eq hf)
  · exact .ok (formatXK_eq hf)
  · exact .ok (formatXK_eq hf)
  · exact decodeFamily5_exact hf
  · exact .ok (formatXK_eq hf)
  · exact .ok (formatXK_eq hf)
  · exact decodeFamily8_exact hf
  · exact decodeFamily9_exact hf
  · exact .ok (formatA_eq hf)
  · exact .ok (formatA_eq hf)
  · exact .ok (formatXK_eq hf)
  · exact .ok (formatXYN_eq hf)
  · exact decodeFamilyE_exact hf
  · exact decodeFamilyF_exact hf
  · exact .illegal op

/-- Settles O2: the decoder answers only instructions whose encoding is the word. -/
theorem encodeInvertsDecode : Obligations.EncodeInvertsDecode := by
  intro op i hi
  obtain ⟨j, hj, hop⟩ | herr := decodeWord_exact op
  · rw [hi] at hj
    cases hj
    exact hop
  · rw [hi] at herr
    cases herr

/-! ### The map of masks and matches (R86) -/

/-- Every instruction's word selects the row that bears its mnemonic. -/
theorem encode_selects_own_row : ∀ i : Instr, Laws.Encoding.Statement i
  | .cls => Laws.Encoding.cls
  | .ret => Laws.Encoding.ret
  | .jp a => Laws.Encoding.jp a
  | .call a => Laws.Encoding.call a
  | .seImm a b => Laws.Encoding.seImm a b
  | .sneImm a b => Laws.Encoding.sneImm a b
  | .seReg a b => Laws.Encoding.seReg a b
  | .ldImm a b => Laws.Encoding.ldImm a b
  | .addImm a b => Laws.Encoding.addImm a b
  | .ldReg a b => Laws.Encoding.ldReg a b
  | .orReg a b => Laws.Encoding.orReg a b
  | .andReg a b => Laws.Encoding.andReg a b
  | .xorReg a b => Laws.Encoding.xorReg a b
  | .addReg a b => Laws.Encoding.addReg a b
  | .subReg a b => Laws.Encoding.subReg a b
  | .shr a b => Laws.Encoding.shr a b
  | .subnReg a b => Laws.Encoding.subnReg a b
  | .shl a b => Laws.Encoding.shl a b
  | .sneReg a b => Laws.Encoding.sneReg a b
  | .ldI a => Laws.Encoding.ldI a
  | .jpV0 a => Laws.Encoding.jpV0 a
  | .rnd a b => Laws.Encoding.rnd a b
  | .drw a b c => Laws.Encoding.drw a b c
  | .skp a => Laws.Encoding.skp a
  | .sknp a => Laws.Encoding.sknp a
  | .ldVxDt a => Laws.Encoding.ldVxDt a
  | .ldVxK a => Laws.Encoding.ldVxK a
  | .ldDtVx a => Laws.Encoding.ldDtVx a
  | .ldStVx a => Laws.Encoding.ldStVx a
  | .addI a => Laws.Encoding.addI a
  | .ldF a => Laws.Encoding.ldF a
  | .ldB a => Laws.Encoding.ldB a
  | .storeRegs a => Laws.Encoding.storeRegs a
  | .loadRegs a => Laws.Encoding.loadRegs a

/-- The family nibble of a word whose bits under the mask 0xF000 are `p`. -/
theorem fieldF_of_family {op p : Word} (h : op &&& 0xF000 = p) : fieldF op = fieldF p := by
  rw [← h, ← formatA_fields op, formatA_and_family, fieldF_formatA, fieldF_formatA]

/-- A word whose bits under the mask 0xF00F are those of `p` has the format XY with the family and the low nibble of `p`. -/
theorem formatXYN_of_selected {op p : Word} {f n : Nibble} (h : op &&& 0xF00F = p) (hf : fieldF p = f) (hn : fieldN p = n) :
    formatXYN f (fieldX op) (fieldY op) n = op := by
  rw [← formatXYN_fields op, formatXYN_and_selector] at h
  exact formatXYN_eq_selector (by rw [← hf, ← h, fieldF_formatXYN]) (by rw [← hn, ← h, fieldN_formatXYN])

/-- A word whose bits under the mask 0xF0FF are those of `p` has the format XK with the family and the low byte of `p`. -/
theorem formatXK_of_selected {op p : Word} {f : Nibble} {kk : Byte} (h : op &&& 0xF0FF = p) (hf : fieldF p = f)
    (hkk : fieldKK p = kk) : formatXK f (fieldX op) kk = op := by
  rw [← formatXK_fields op, formatXK_and_selector] at h
  exact formatXK_eq_selector (by rw [← hf, ← h, fieldF_formatXK]) (by rw [← hkk, ← h, fieldKK_formatXK])

/-- Some instruction with the mnemonic `name` encodes to the word. -/
def IsWordOf (op : Word) (name : String) : Prop := ∃ i, encode i = op ∧ i.mnemonic = name

/-- A word that selects a row of the map is the word of an instruction with the row's mnemonic: the mask fixes the family and the
selector, and the other fields are the operands. -/
theorem isWordOf_of_selects {op : Word} : ∀ r ∈ opcodeMap, op &&& r.mask = r.pattern → IsWordOf op r.mnemonic := by
  have whole {i : Instr} (h : op &&& 0xFFFF = encode i) : IsWordOf op i.mnemonic :=
    ⟨i, h.symm.trans (BitVec.and_allOnes (x := op)), rfl⟩
  simp only [opcodeMap, List.cons_append, List.nil_append, List.forall_mem_cons]
  exact ⟨
    fun h => whole (i := .cls) h,
    fun h => whole (i := .ret) h,
    fun h => ⟨.jp _, formatA_eq (fieldF_of_family h), rfl⟩,
    fun h => ⟨.call _, formatA_eq (fieldF_of_family h), rfl⟩,
    fun h => ⟨.seImm _ _, formatXK_eq (fieldF_of_family h), rfl⟩,
    fun h => ⟨.sneImm _ _, formatXK_eq (fieldF_of_family h), rfl⟩,
    fun h => ⟨.seReg _ _, formatXYN_of_selected h rfl rfl, rfl⟩,
    fun h => ⟨.ldImm _ _, formatXK_eq (fieldF_of_family h), rfl⟩,
    fun h => ⟨.addImm _ _, formatXK_eq (fieldF_of_family h), rfl⟩,
    fun h => ⟨.ldReg _ _, formatXYN_of_selected h rfl rfl, rfl⟩,
    fun h => ⟨.orReg _ _, formatXYN_of_selected h rfl rfl, rfl⟩,
    fun h => ⟨.andReg _ _, formatXYN_of_selected h rfl rfl, rfl⟩,
    fun h => ⟨.xorReg _ _, formatXYN_of_selected h rfl rfl, rfl⟩,
    fun h => ⟨.addReg _ _, formatXYN_of_selected h rfl rfl, rfl⟩,
    fun h => ⟨.subReg _ _, formatXYN_of_selected h rfl rfl, rfl⟩,
    fun h => ⟨.shr _ _, formatXYN_of_selected h rfl rfl, rfl⟩,
    fun h => ⟨.subnReg _ _, formatXYN_of_selected h rfl rfl, rfl⟩,
    fun h => ⟨.shl _ _, formatXYN_of_selected h rfl rfl, rfl⟩,
    fun h => ⟨.sneReg _ _, formatXYN_of_selected h rfl rfl, rfl⟩,
    fun h => ⟨.ldI _, formatA_eq (fieldF_of_family h), rfl⟩,
    fun h => ⟨.jpV0 _, formatA_eq (fieldF_of_family h), rfl⟩,
    fun h => ⟨.rnd _ _, formatXK_eq (fieldF_of_family h), rfl⟩,
    fun h => ⟨.drw _ _ _, formatXYN_eq (fieldF_of_family h), rfl⟩,
    fun h => ⟨.skp _, formatXK_of_selected h rfl rfl, rfl⟩,
    fun h => ⟨.sknp _, formatXK_of_selected h rfl rfl, rfl⟩,
    fun h => ⟨.ldVxDt _, formatXK_of_selected h rfl rfl, rfl⟩,
    fun h => ⟨.ldVxK _, formatXK_of_selected h rfl rfl, rfl⟩,
    fun h => ⟨.ldDtVx _, formatXK_of_selected h rfl rfl, rfl⟩,
    fun h => ⟨.ldStVx _, formatXK_of_selected h rfl rfl, rfl⟩,
    fun h => ⟨.addI _, formatXK_of_selected h rfl rfl, rfl⟩,
    fun h => ⟨.ldF _, formatXK_of_selected h rfl rfl, rfl⟩,
    fun h => ⟨.ldB _, formatXK_of_selected h rfl rfl, rfl⟩,
    fun h => ⟨.storeRegs _, formatXK_of_selected h rfl rfl, rfl⟩,
    fun h => ⟨.loadRegs _, formatXK_of_selected h rfl rfl, rfl⟩,
    fun _ hr => absurd hr List.not_mem_nil⟩

/-- A word that no row of the map selects is refused by name: the word of an instruction selects its own row. -/
theorem decodeWord_of_no_row {op : Word} (h : ∀ r ∈ opcodeMap, op &&& r.mask ≠ r.pattern) :
    decodeWord op = .error (.illegal op) := by
  obtain ⟨i, -, hop⟩ | herr := decodeWord_exact op
  · obtain ⟨r, hr, -, hsel⟩ := encode_selects_own_row i
    rw [hop] at hsel
    exact absurd (by simpa [OpRow.selects] using hsel) (h r hr)
  · exact herr

/-- Settles O3: a selected row makes the word that of an instruction with its mnemonic, which the decoder gives back; with no
row selected the decoder refuses. -/
theorem decodeFollowsTheOpcodeMap : Obligations.DecodeFollowsTheOpcodeMap := by
  intro op
  by_cases h : ∃ r ∈ opcodeMap, op &&& r.mask = r.pattern
  · obtain ⟨r, hr, hsel⟩ := h
    obtain ⟨i, rfl, hname⟩ := isWordOf_of_selects r hr hsel
    exact .inl ⟨r, hr, hsel, i, decodeWord_encode i, hname⟩
  · have hno : ∀ r ∈ opcodeMap, op &&& r.mask ≠ r.pattern := fun r hr hsel => h ⟨r, hr, hsel⟩
    exact .inr ⟨hno, decodeWord_of_no_row hno⟩

end Sys2Proof
end

section
/-! SUPPORT. Everything `exec` can answer, said once: a fault of the instruction's own, a stack entry that does not exist, or one of
the few shapes of effect. The statements over all instructions are read off from here. -/

namespace Sys2Proof.Machine

/-- The effect of an instruction that goes on, by the piece of state it writes. -/
inductive Effect (i : Instr) (s : State) : State → Prop
  /-- General registers, none but the instruction's destinations (43_load_alu.md, R182, R185, R194). -/
  | registers (v : Vector Byte 16) (hv : ∀ r, writesV i r = false → getV { s with v := v } r = getV s r) :
      Effect i s { s with v := v }
  /-- One register, with a free byte spent (R162). -/
  | random (x : Nibble) (kk b : Byte) (hi : i = .rnd x kk) : Effect i s (setV (drawByte s).2 x b)
  /-- A jump, to a target an address field and a byte reach (R122, R161). -/
  | jump (w : Word) (hw : w.toNat ≤ 0x10FE) : Effect i s (setPC s w)
  /-- A skip, taken or not (42_skips.md, R180, R181). -/
  | skip (c : Bool) : Effect i s { s with pc := if c then s.pc + 2 else s.pc }
  /-- The rewind of the key wait (R185). -/
  | wait : Effect i s (rewindPC s)
  /-- A call (R123). -/
  | push (nnn : Addr12) (hi : usesStack i) (h : s.sp.toNat < 16) :
      Effect i s (setPC (pushEntry s s.pc h) (addressOf nnn))
  /-- A return (R121). -/
  | pop (hi : usesStack i) (h0 : s.sp ≠ 0) (h : s.sp.toNat - 1 < 16) : Effect i s (popEntry s h)
  /-- The address register, at most 0xFFF (R160, R190, R191). -/
  | index (w : Word) (hi : writesI i) (hw : w.toNat ≤ 0xFFF) : Effect i s (setI s w)
  /-- A store, which keeps memory canonical (R192, R193). -/
  | store (m : Memory) (hi : storesMemory i) (hm : s.mem.wf = true → m.wf = true) : Effect i s { s with mem := m }
  /-- The delay timer (R183). -/
  | delay (x : Nibble) (hi : i = .ldDtVx x) : Effect i s { s with dt := getV s x }
  /-- The sound timer (R184). -/
  | sound (x : Nibble) (hi : i = .ldStVx x) : Effect i s { s with st := getV s x, sound := getV s x != 0 }
  /-- The cleared screen (R120). -/
  | clear (hi : i = .cls) : Effect i s { s with fb := blankScreen }
  /-- A sprite drawn, and its flag (R170). -/
  | draw (x y n : Nibble) (hi : i = .drw x y n) (fb : FrameBuffer) (b : Byte) :
      Effect i s (setV { s with fb := fb, redraw := true } vf b)

variable {i : Instr} {s t : State}

theorem Effect.setV {x : Nibble} {b : Byte} (hx : ∀ r, writesV i r = (r == x)) : Effect i s (setV s x b) := by
  refine .registers _ fun r hr => ?_
  rw [hx, beq_eq_false_iff_ne] at hr
  exact (getV_setV s x r b).trans (if_neg hr)

theorem Effect.setResultAndFlag {x : Nibble} {b : Byte} {c : Bool} (hx : ∀ r, writesV i r = (r == x || r == vf)) :
    Effect i s (setResultAndFlag s x b c) := by
  refine .registers _ fun r hr => ?_
  rw [hx, Bool.or_eq_false_iff, beq_eq_false_iff_ne, beq_eq_false_iff_ne] at hr
  exact (getV_setResultAndFlag s x r b c).trans ((if_neg hr.2).trans (if_neg hr.1))

/-- What an instruction answers: an effect, a fault of its own that is taken, or a stack entry that does not exist. -/
inductive Answer (i : Instr) (s : State) : Host.Outcome State Fault Refusal → Prop
  | goesOn {t : State} (h : Effect i s t) : Answer i s (.next t)
  | raises {c : Cause} (h : mayRaise i c) : Answer i s (.next (raise c s))
  | noEntry (k : Nat) (h : 16 < s.sp.toNat) : Answer i s (.fault (.noSuchStackEntry k))

/-! ### The instructions that can answer in more than one way -/

theorem answer_skipIf (c : Bool) : Answer i s (skipIf c s) := by
  rw [skipIf_eq]
  exact .goesOn (.skip c)

theorem answer_skipOnKey (hi : ∀ k, mayRaise i (.keyIndex k)) (want : Bool) (x : Nibble) :
    Answer i s (skipOnKey want x s) := by
  rcases Nat.lt_or_ge 15 (getV s x).toNat with h | h
  · rw [skipOnKey_error h]
    exact .raises (hi _)
  · rw [skipOnKey_ok h]
    exact answer_skipIf _

theorem answer_ret : Answer .ret s (execRet s) := by
  obtain ⟨-, e⟩ | ⟨h, h0, e⟩ | ⟨h, e⟩ := execRet_cases s <;> rw [e]
  · exact .raises rfl
  · exact .goesOn (.pop (.inl rfl) h0 h)
  · exact .noEntry _ h

theorem answer_call (nnn : Addr12) : Answer (.call nnn) s (execCall nnn s) := by
  obtain ⟨-, e⟩ | ⟨h, e⟩ | ⟨h, e⟩ := execCall_cases nnn s <;> rw [e]
  · exact .raises rfl
  · exact .goesOn (.push nnn (.inr ⟨nnn, rfl⟩) h)
  · exact .noEntry _ h

theorem answer_storeAtI (hi : storesMemory i) (hc : ∀ a, mayRaise i (.memoryBounds a)) (bs : List Byte) :
    Answer i s (storeAtI bs s) := by
  obtain ⟨m, e, hm⟩ | ⟨a, e⟩ := storeAtI_cases bs s <;> rw [e]
  · exact .goesOn (.store m hi hm)
  · exact .raises (hc a)

theorem answer_loadRegs (x : Nibble) : Answer (.loadRegs x) s (execLoadRegs x s) := by
  rcases Nat.lt_or_ge 0xFFF (s.i.toNat + x.toNat) with h | h
  · rw [execLoadRegs_error h]
    exact .raises ⟨_, rfl⟩
  · rw [execLoadRegs_ok h]
    refine .goesOn (.registers _ fun r hr => ?_)
    have hr' : x.toNat < r.toNat := by simpa [writesV] using hr
    exact (fillRegs_getElem _ s.v 0 r.toNat r.isLt).trans (dif_neg (by simp; omega))

theorem answer_drw (x y n : Nibble) : Answer (.drw x y n) s (execDrw x y n s) := by
  by_cases h : n.toNat = 0 ∨ s.i.toNat + n.toNat ≤ 4096
  · rw [execDrw_ok h]
    exact .goesOn (.draw x y n rfl _ _)
  · rw [execDrw_error (by omega) (by omega)]
    exact .raises ⟨_, rfl⟩

theorem answer_ldVxK (x : Nibble) : Answer (.ldVxK x) s (execLdVxK x s) := by
  cases h : lowestKey s with
  | some k =>
    rw [execLdVxK_some h]
    exact .goesOn (.setV fun _ => rfl)
  | none =>
    rw [execLdVxK_none h]
    exact .goesOn .wait

/-! ### All instructions -/

theorem exec_answer (i : Instr) (s : State) : Answer i s (exec i s) := by
  cases i
  case ldImm | addImm | ldReg | orReg | andReg | xorReg | ldVxDt => exact .goesOn (.setV fun _ => rfl)
  case addReg | subReg | shr | subnReg | shl => exact .goesOn (.setResultAndFlag fun _ => rfl)
  case seImm | sneImm | seReg | sneReg => exact answer_skipIf _
  case skp x => exact answer_skipOnKey (i := .skp x) (fun k => ⟨k, rfl⟩) true x
  case sknp x => exact answer_skipOnKey (i := .sknp x) (fun k => ⟨k, rfl⟩) false x
  case jp nnn =>
    exact .goesOn (.jump _ (by rw [addressOf_toNat]; omega))
  case jpV0 nnn =>
    exact .goesOn (.jump _ (by rw [indexedTarget_toNat]; omega))
  case call nnn => exact answer_call nnn
  case ret => exact answer_ret
  case ldI nnn =>
    exact .goesOn (.index _ (.inl ⟨nnn, rfl⟩) (by rw [addressOf_toNat]; omega))
  case addI x =>
    exact .goesOn (.index _ (.inr (.inl ⟨x, rfl⟩)) (by rw [indexSum_toNat]; omega))
  case ldF x =>
    have := Config.fontBase_le
    exact .goesOn (.index _ (.inr (.inr ⟨x, rfl⟩)) (by rw [glyphAddress_toNat]; omega))
  case ldB x => exact answer_storeAtI (.inl ⟨x, rfl⟩) (fun a => ⟨a, rfl⟩) _
  case storeRegs x => exact answer_storeAtI (.inr ⟨x, rfl⟩) (fun a => ⟨a, rfl⟩) _
  case loadRegs x => exact answer_loadRegs x
  case drw x y n => exact answer_drw x y n
  case cls => exact .goesOn (.clear rfl)
  case rnd x kk => exact .goesOn (.random x kk _ rfl)
  case ldVxK x => exact answer_ldVxK x
  case ldDtVx x => exact .goesOn (.delay x rfl)
  case ldStVx x => exact .goesOn (.sound x rfl)

/-- An instruction that answers a next state has an effect or takes a fault of its own. -/
theorem exec_next (h : exec i s = .next t) : Effect i s t ∨ ∃ c, mayRaise i c ∧ t = raise c s := by
  have ha := exec_answer i s
  rw [h] at ha
  cases ha with
  | goesOn he => exact .inl he
  | raises hc => exact .inr ⟨_, hc, rfl⟩

/-- An instruction that ends running has had its effect. -/
theorem effect_of_running (h : exec i s = .next t) (ht : t.status = .running) : Effect i s t := by
  obtain he | ⟨c, -, rfl⟩ := exec_next h
  · exact he
  · exact absurd ht (raise_not_running c s)

/-- No effect touches the fault latch. -/
theorem Effect.status_eq (h : Effect i s t) : t.status = s.status := by
  cases h <;> rfl

end Sys2Proof.Machine
end

section
/-! SUPPORT. Proofs of the frames over all instructions: each is read off the shapes of an effect. -/

namespace Sys2Proof.Machine

/-- Settles O10: an effect leaves the latch as it was, so a fault latched is the one the instruction raised. -/
theorem eachInstructionRaisesOnlyItsCauses : Obligations.EachInstructionRaisesOnlyItsCauses := by
  intro i s t c hs h ht
  obtain he | ⟨c', hc', rfl⟩ := exec_next h
  · rw [he.status_eq, hs] at ht
    cases ht
  · rw [raise_status] at ht
    cases ht
    exact hc'

/-- Settles O51: a register outside the destinations is out of every effect's reach. -/
theorem registerFrame : Obligations.RegisterFrame := by
  intro i s t r h ht hr
  cases effect_of_running h ht
  case registers hv => exact hv r hr
  case random x kk b hi =>
    subst hi
    have hrx : r ≠ x := by simpa [writesV] using hr
    exact (getV_setV _ x r b).trans (if_neg hrx)
  case draw hi fb b =>
    subst hi
    have hrf : r ≠ vf := by simpa [writesV] using hr
    exact (getV_setV _ vf r b).trans (if_neg hrf)
  all_goals rfl

/-- A store that ends running, on canonical memory, has changed no byte outside its own. -/
theorem storeAtI_frame {bs : List Byte} {s t : State} (hb : bs ≠ []) (h : storeAtI bs s = .next t) (ht : t.status = .running)
    (hm : s.mem.wf = true) {a : Nat} (ha : a < s.i.toNat ∨ s.i.toNat + bs.length ≤ a) : t.mem.get a = s.mem.get a := by
  rcases Nat.lt_or_ge 4096 (s.i.toNat + bs.length) with hout | hin
  · rw [storeAtI_error hb hout] at h
    cases h
    exact absurd ht (raise_not_running _ s)
  · obtain ⟨m', e, -, hget⟩ := storeAtI_ok (.inr hin) hm
    rw [e] at h
    cases h
    exact (hget a).trans (dif_neg (by omega))

/-- Settles O52: a store is the only effect on memory, and it keeps to its own addresses. -/
theorem memoryFrame : Obligations.MemoryFrame := by
  intro i s t a h ht
  refine ⟨fun hno => ?other, fun x hi hm ha => ?bcd, fun x hi hm ha => ?bulk⟩
  case other =>
    cases effect_of_running h ht
    case store hi _ => exact absurd hi hno
    all_goals rfl
  case bcd =>
    subst hi
    exact storeAtI_frame (List.cons_ne_nil _ _) h ht hm ha
  case bulk =>
    subst hi
    exact storeAtI_frame (regsThrough_ne_nil s x) h ht hm (by rw [regsThrough_length]; omega)

/-- Settles O53: the two effects on the framebuffer are those of `CLS` and `DRW`. -/
theorem screenFrame : Obligations.ScreenFrame := by
  intro i s t h ht hno
  cases effect_of_running h ht
  case clear hi => exact absurd (.inl hi) hno
  case draw x y n hi _ _ => exact absurd (.inr ⟨x, y, n, hi⟩) hno
  all_goals rfl

namespace Effect

variable {i : Instr} {s t : State}

theorem i_eq (h : Effect i s t) (hi : ¬writesI i) : t.i = s.i := by
  cases h
  case index hi' _ => exact absurd hi' hi
  all_goals rfl

theorem stack_eq (h : Effect i s t) (hi : ¬usesStack i) : t.sp = s.sp ∧ t.stack = s.stack := by
  cases h
  case push hi' _ => exact absurd hi' hi
  case pop hi' _ _ => exact absurd hi' hi
  all_goals exact ⟨rfl, rfl⟩

theorem dt_eq (h : Effect i s t) (hi : ∀ x, i ≠ .ldDtVx x) : t.dt = s.dt := by
  cases h
  case delay x hi' => exact absurd hi' (hi x)
  all_goals rfl

theorem st_eq (h : Effect i s t) (hi : ∀ x, i ≠ .ldStVx x) : t.st = s.st := by
  cases h
  case sound x hi' => exact absurd hi' (hi x)
  all_goals rfl

theorem keys_eq (h : Effect i s t) : t.keys = s.keys := by
  cases h <;> rfl

theorem draws_eq (h : Effect i s t) (hi : ∀ x kk, i ≠ .rnd x kk) : t.draws = s.draws := by
  cases h
  case random x kk _ hi' => exact absurd hi' (hi x kk)
  all_goals rfl

theorem redraw_eq (h : Effect i s t) (hi : ¬∃ x y n, i = .drw x y n) : t.redraw = s.redraw := by
  cases h
  case draw x y n hi' _ _ => exact absurd ⟨x, y, n, hi'⟩ hi
  all_goals rfl

theorem sound_eq (h : Effect i s t) (hi : ¬∃ x, i = .ldStVx x) : t.sound = s.sound := by
  cases h
  case sound x hi' => exact absurd ⟨x, hi'⟩ hi
  all_goals rfl

end Effect

/-- Settles O54: each piece of state has its own effects, named by the lemmas above. -/
theorem specialStateFrame : Obligations.SpecialStateFrame := by
  intro i s t h ht
  have he := effect_of_running h ht
  exact ⟨he.i_eq, he.stack_eq, he.dt_eq, he.st_eq, he.keys_eq, he.draws_eq, he.status_eq⟩

/-- A draw that ends running has requested a redraw (R170). -/
theorem execDrw_redraw {x y n : Nibble} {s t : State} (h : execDrw x y n s = .next t) (ht : t.status = .running) :
    t.redraw = true := by
  by_cases hin : n.toNat = 0 ∨ s.i.toNat + n.toNat ≤ 4096
  · rw [execDrw_ok hin] at h
    cases h
    rfl
  · rw [execDrw_error (by omega) (by omega)] at h
    cases h
    exact absurd ht (raise_not_running _ s)

/-- Settles O55: `beginStep` clears both flags, and only `DRW` and `LD ST, Vx` have an effect on them. -/
theorem stepFlagsSayWhatRan : Obligations.StepFlagsSayWhatRan := by
  intro i s t hs hf h ht
  rw [step_of_fetch hs hf] at h
  have he := effect_of_running h ht
  constructor
  · by_cases hi : ∃ x y n, i = .drw x y n
    · obtain ⟨x, y, n, rfl⟩ := hi
      exact iff_of_true (execDrw_redraw h ht) ⟨x, y, n, rfl⟩
    · exact iff_of_false (by simp [he.redraw_eq hi]) hi
  · by_cases hi : ∃ x, i = .ldStVx x
    · obtain ⟨x, rfl⟩ := hi
      cases h
      simp [getV_eq_of_v (beginStep_v s)]
    · exact iff_of_false (by simp [he.sound_eq hi]) fun ⟨x, hx, _⟩ => hi ⟨x, hx⟩

end Sys2Proof.Machine
end

section
/-! SUPPORT. Proofs of the statements on legal states (spec/10_state.md section 9): a step from a legal state goes on, and what it
leaves is legal. -/

namespace Sys2Proof.Machine

variable {i : Instr} {s t : State}

theorem Effect.mem_wf (h : Effect i s t) (hm : s.mem.wf = true) : t.mem.wf = true := by
  cases h
  case store hm' => exact hm' hm
  all_goals exact hm

/-- A push of the advanced `PC`, which lies in 2..0x1000, keeps the registers legal (R123). -/
theorem push_registersLegal (hs : s.RegistersLegal) (hlo : 2 ≤ s.pc.toNat) (hhi : s.pc.toNat ≤ 0x1000) (h : s.sp.toNat < 16)
    (nnn : Addr12) : (setPC (pushEntry s s.pc h) (addressOf nnn)).RegistersLegal where
  i_le := hs.i_le
  pc_le := by
    rw [setPC_pc, addressOf_toNat]
    omega
  sp_le := by
    simp only [setPC_sp, pushEntry_sp]
    bv_omega
  stack_mem j hj hlt := by
    have hsp : (s.sp + 1).toNat = s.sp.toNat + 1 := by bv_omega
    simp only [setPC_sp, pushEntry_sp, hsp] at hlt
    simp only [setPC_stack, pushEntry_stack, Vector.getElem_set]
    split_ifs with htop
    · exact ⟨hlo, hhi⟩
    · exact hs.stack_mem j hj (by omega)

/-- A pop jumps to a return address, which lies in 2..0x1000 (R121). -/
theorem pop_registersLegal (hs : s.RegistersLegal) (h0 : s.sp ≠ 0) (h : s.sp.toNat - 1 < 16) : (popEntry s h).RegistersLegal := by
  have hsp : (s.sp - 1).toNat = s.sp.toNat - 1 := by bv_omega
  have hpos : s.sp.toNat ≠ 0 := by bv_omega
  have htop := hs.stack_mem (s.sp.toNat - 1) h (by omega)
  have hle := hs.sp_le
  refine ⟨hs.i_le, ?_, ?_, fun j hj hlt => ?_⟩
  · rw [popEntry_pc]
    omega
  · rw [popEntry_sp, hsp]
    omega
  · rw [popEntry_sp, hsp] at hlt
    exact hs.stack_mem j hj (by omega)

/-- With `PC` where an instruction just fetched has left it, in 2..0x1000, every effect keeps the registers legal. -/
theorem Effect.registersLegal (he : Effect i s t) (hs : s.RegistersLegal) (hlo : 2 ≤ s.pc.toNat) (hhi : s.pc.toNat ≤ 0x1000) :
    t.RegistersLegal := by
  have withPC {w : Word} (hw : w.toNat ≤ 0x10FE) : (setPC s w).RegistersLegal := ⟨hs.i_le, hw, hs.sp_le, hs.stack_mem⟩
  cases he
  case registers | random | store | delay | sound | clear | draw =>
    exact ⟨hs.i_le, hs.pc_le, hs.sp_le, hs.stack_mem⟩
  case jump w hw => exact withPC hw
  case skip c => exact withPC (by split_ifs <;> bv_omega)
  case wait => exact withPC (by bv_omega)
  case push nnn _ h => exact push_registersLegal hs hlo hhi h nnn
  case pop h0 h => exact pop_registersLegal hs h0 h
  case index w _ hw => exact ⟨hw, hs.pc_le, hs.sp_le, hs.stack_mem⟩

/-- A core that has taken a fault is legal: its memory is canonical and nothing is asked of its registers (R230). -/
theorem raise_legal (c : Cause) (s : State) : (raise c s).Legal :=
  ⟨raise_mem_wf c s, fun h => absurd h (raise_not_running c s)⟩

/-- After the fetch, `PC` is at most 0x1000 and nothing else has left its range. -/
theorem beginStep_registersLegal (hs : s.RegistersLegal) (hpc : s.pc.toNat ≤ 0xFFE) : (beginStep s).RegistersLegal :=
  ⟨hs.i_le, by rw [beginStep_pc]; bv_omega, hs.sp_le, hs.stack_mem⟩

/-- Settles O12: the step takes a fault, or has the effect of an instruction fetched from inside memory. -/
theorem stepKeepsLegal : Obligations.StepKeepsLegal := by
  intro s t hs h
  cases hst : s.status with
  | faulted c =>
    rw [step_faulted hst] at h
    cases h
  | running =>
    have hregs := hs.registers hst
    obtain ⟨c, -, e⟩ | ⟨i, hf, e⟩ := step_running hst <;> rw [h] at e
    · cases e
      exact raise_legal c s
    · have hpc := (fetchInstr_ok hf).1
      obtain he | ⟨c, -, rfl⟩ := exec_next e.symm
      · exact ⟨he.mem_wf hs.mem_wf, fun _ => he.registersLegal (beginStep_registersLegal hregs hpc)
          (by rw [beginStep_pc]; bv_omega) (by rw [beginStep_pc]; bv_omega)⟩
      · exact raise_legal c _

/-- With at most sixteen stack entries an instruction always answers a next state. -/
theorem Answer.next {o : Host.Outcome State Fault Refusal} (ha : Answer i s o) (hsp : s.sp.toNat ≤ 16) : ∃ t, o = .next t := by
  cases ha with
  | goesOn _ => exact ⟨_, rfl⟩
  | raises _ => exact ⟨_, rfl⟩
  | noEntry _ h => exact absurd hsp (Nat.not_le.2 h)

/-- Settles O8: of an instruction's answers only the missing stack entry is no next state, and it needs `SP` above 16. -/
theorem aRunningCoreAlwaysSteps : Obligations.ARunningCoreAlwaysSteps := by
  intro s hs hst
  have hsp := (hs.registers hst).sp_le
  obtain ⟨c, -, e⟩ | ⟨i, -, e⟩ := step_running hst <;> rw [e]
  · exact ⟨_, rfl⟩
  · exact (exec_answer i (beginStep s)).next hsp

/-- A state that differs in its timers and keys alone is as legal as the state it differs from. -/
theorem State.Legal.withTimersAndKeys (hs : s.Legal) (dt st : Byte) (keys : Vector Bool 16) :
    ({ s with dt := dt, st := st, keys := keys } : State).Legal :=
  ⟨hs.mem_wf, fun hst =>
    have hr := hs.registers hst
    ⟨hr.i_le, hr.pc_le, hr.sp_le, hr.stack_mem⟩⟩

theorem reset_registersLegal : State.reset.RegistersLegal :=
  ⟨by decide, by decide, by decide, fun j _ hlt => absurd hlt (Nat.not_lt_zero j)⟩

/-- `Init` leaves a legal state whatever the ROM: one that fits is loaded into canonical memory, with the stack empty; one that
does not fit is a fault (R250, R222). -/
theorem initCore_legal (rom : List Byte) (s : State) : (initCore rom s).Legal := by
  rcases Nat.lt_or_ge Config.romMax rom.length with h | h
  · rw [initCore_of_too_long h]
    exact raise_legal _ s
  · have hfits : Config.progBase + rom.length ≤ 4096 := by
      simp only [Config.progBase, Config.romMax] at h ⊢
      omega
    rw [initCore_of_fits h]
    exact ⟨(Memory.load_spec hfits Memory.wf_reset).1, fun _ =>
      have hr := reset_registersLegal
      ⟨hr.i_le, hr.pc_le, hr.sp_le, hr.stack_mem⟩⟩

theorem perform_legal {op : DriverOp} (hs : s.Legal) (h : perform op s = .next t) : t.Legal := by
  cases op with
  | step => exact stepKeepsLegal s t hs h
  | init rom => cases h; exact initCore_legal rom s
  | tickTimers => cases h; exact hs.withTimersAndKeys _ _ s.keys
  | writeKeypad k => cases h; exact hs.withTimersAndKeys s.dt s.st k
  | readFramebuffer | snapshot | dumpMemory => cases h; exact hs

/-- A schedule that ends in a next state performed its first operation and then the rest. -/
theorem performAll_cons_next {op : DriverOp} {ops : List DriverOp} (h : performAll (op :: ops) s = .next t) :
    ∃ u, perform op s = .next u ∧ performAll ops u = .next t := by
  rw [performAll] at h
  cases hp : perform op s with
  | next u => exact ⟨u, rfl, by rwa [hp] at h⟩
  | fault r => rw [hp] at h; cases h
  | refused r => rw [hp] at h; cases h

/-- Settles O13: by induction on the schedule, each operation keeping the state legal. -/
theorem everyScheduleKeepsLegal : Obligations.EveryScheduleKeepsLegal := by
  intro ops
  induction ops with
  | nil =>
    intro s t hs h
    cases h
    exact hs
  | cons op ops ih =>
    intro s t hs h
    obtain ⟨u, hu, hrest⟩ := performAll_cons_next h
    exact ih u t (perform_legal hs hu) hrest

/-- Settles O11: `Init` of the empty ROM copies nothing. -/
theorem resetIsLegal : Obligations.ResetIsLegal := by
  have hinit : initCore [] State.reset = State.reset := initCore_of_fits (Nat.zero_le _) State.reset
  exact ⟨hinit ▸ initCore_legal [] State.reset, hinit⟩

end Sys2Proof.Machine
end

section
/-! SUPPORT. Proofs of the statements on flow and skips (spec/41_flow.md, spec/42_skips.md). -/

namespace Sys2Proof.Machine

/-- Settles O20 (R120): every pixel of the blank screen is off. -/
theorem clsClearsTheScreen : Obligations.ClsClearsTheScreen := by
  intro s
  exact ⟨{ s with fb := blankScreen }, rfl, getPixel_blankScreen, rfl⟩

/-- Settles O21 (R121, R226): of the three answers of `RET`, `SP` = 0 leaves the fault and 1 to 16 leaves the pop. -/
theorem retPopsOrUnderflows : Obligations.RetPopsOrUnderflows := by
  intro s
  constructor
  · intro h0
    obtain ⟨-, e⟩ | ⟨-, hne, -⟩ | ⟨h, -⟩ := execRet_cases s
    · exact ⟨_, e, raise_status s _⟩
    · exact absurd (BitVec.toNat_inj.1 h0) hne
    · omega
  · intro j hj hsp
    obtain ⟨h0, -⟩ | ⟨h, hne, e⟩ | ⟨h, -⟩ := execRet_cases s
    · simp [h0] at hsp
    · refine ⟨_, e, ?_, ?_, rfl⟩
      · rw [popEntry_sp]
        bv_omega
      · simp [hsp]
    · omega

/-- Settles O22 (R122). -/
theorem jpSetsPC : Obligations.JpSetsPC := by
  intro s nnn
  exact ⟨_, rfl, addressOf_toNat nnn, rfl⟩

/-- R123, R225: with a free entry `CALL` pushes the advanced `PC` and jumps. -/
theorem execCall_of_free {s : State} (nnn : Addr12) (h : s.sp.toNat < 16) :
    execCall nnn s = .next (setPC (pushEntry s s.pc h) (addressOf nnn)) := by
  obtain ⟨h16, -⟩ | ⟨_, e⟩ | ⟨habove, -⟩ := execCall_cases nnn s
  · simp [h16] at h
  · exact e
  · omega

/-- Settles O23 (R123). -/
theorem callPushesAndJumps : Obligations.CallPushesAndJumps := by
  intro s nnn h
  refine ⟨_, execCall_of_free nnn h, addressOf_toNat nnn, ?sp, ?top, fun j hj hne => ?others, rfl⟩
  case sp =>
    rw [setPC_sp, pushEntry_sp]
    bv_omega
  case top => simp
  case others => simp [Ne.symm hne]

/-- Settles O25 (R107b): the call leaves memory and jumps, so the next fetch is the return; the entry it pops is the one the call
pushed. -/
theorem callThenReturnRoundTrip : Obligations.CallThenReturnRoundTrip := by
  intro s nnn hrun h hcall hret
  obtain ⟨t, ht, htpc, htsp, httop, -, htrest⟩ := callPushesAndJumps (beginStep s) nnn h
  have hmem : t.mem = s.mem := by rw [htrest, beginStep_mem]
  have hv : t.v = s.v := by rw [htrest, beginStep_v]
  have hstatus : t.status = .running := (congrArg State.status htrest).trans hrun
  have hpc : t.pc = nnn.setWidth 16 := BitVec.toNat_inj.1 (htpc.trans (addressOf_toNat nnn).symm)
  have hfetch : fetchInstr t = .ok .ret :=
    (fetchInstr_congr (t := { s with pc := nnn.setWidth 16 }) hmem hpc).trans hret
  obtain ⟨u, hu, husp, hupc, hurest⟩ := (retPopsOrUnderflows (beginStep t)).2 s.sp.toNat h htsp
  refine ⟨t, u, (step_of_fetch hrun hcall).trans ht, (step_of_fetch hstatus hfetch).trans hu, ?pc, ?sp, ?v, ?mem⟩
  case pc => exact hupc.trans httop
  case sp => exact BitVec.toNat_inj.1 husp
  case v => exact (congrArg State.v hurest).trans hv
  case mem => exact (congrArg State.mem hurest).trans hmem

/-- R105: each register skip is a skip on its condition. -/
theorem exec_seImm (x : Nibble) (kk : Byte) (s : State) : exec (.seImm x kk) s = skipIf (getV s x == kk) s := rfl

theorem exec_sneImm (x : Nibble) (kk : Byte) (s : State) : exec (.sneImm x kk) s = skipIf (getV s x != kk) s := rfl

theorem exec_seReg (x y : Nibble) (s : State) : exec (.seReg x y) s = skipIf (getV s x == getV s y) s := rfl

theorem exec_sneReg (x y : Nibble) (s : State) : exec (.sneReg x y) s = skipIf (getV s x != getV s y) s := rfl

/-- R105: each keypad skip is a skip on the level it wants. -/
theorem exec_skp (x : Nibble) (s : State) : exec (.skp x) s = skipOnKey true x s := rfl

theorem exec_sknp (x : Nibble) (s : State) : exec (.sknp x) s = skipOnKey false x s := rfl

/-- Settles O26 (R130, R131). -/
theorem skipsOnAnImmediate : Obligations.SkipsOnAnImmediate := by
  intro s x kk
  constructor
  · simp [exec_seImm, skipIf_eq]
  · simp [exec_sneImm, skipIf_eq]

/-- Settles O27 (R132, R133). -/
theorem skipsOnARegister : Obligations.SkipsOnARegister := by
  intro s x y
  constructor
  · simp [exec_seReg, skipIf_eq]
  · simp [exec_sneReg, skipIf_eq]

/-- Settles O40 (R180, R181, R186): a value up to 15 is its own low nibble, and the skip looks at that key. -/
theorem keypadSkips : Obligations.KeypadSkips := by
  intro s x
  constructor
  · intro k hk
    have hle : (getV s x).toNat ≤ 15 := by omega
    have hkey : (getV s x).setWidth 4 = k := by
      apply BitVec.eq_of_toNat_eq
      rw [BitVec.toNat_setWidth, hk, Nat.mod_eq_of_lt k.isLt]
    constructor
    · simp [exec_skp, skipOnKey_ok hle, hkey, skipIf_eq]
    · simp [exec_sknp, skipOnKey_ok hle, hkey, skipIf_eq]
  · intro hgt
    exact ⟨⟨_, skipOnKey_error hgt, raise_status s _⟩, ⟨_, skipOnKey_error hgt, raise_status s _⟩⟩

/-- A keypad skip with a condition has a key number in its register. -/
theorem key_of_skipCondition {b : Byte} {d c : Bool} (h : (if b.toNat ≤ 15 then some d else none) = some c) :
    b.toNat ≤ 15 ∧ d = c := by
  split_ifs at h with hle
  exact ⟨hle, Option.some.inj h⟩

/-- An instruction with a skip condition is a skip on it. -/
theorem exec_of_skipCondition {i : Instr} {s : State} {c : Bool} (h : skipCondition i s = some c) : exec i s = skipIf c s := by
  cases i
  case seImm x kk => cases h; rfl
  case sneImm x kk => cases h; rw [exec_sneImm, bne, beq_eq_decide, decide_not]
  case seReg x y => cases h; rfl
  case sneReg x y => cases h; rw [exec_sneReg, bne, beq_eq_decide, decide_not]
  case skp x =>
    obtain ⟨hle, rfl⟩ := key_of_skipCondition h
    rw [exec_skp, skipOnKey_ok hle, beq_true]
  case sknp x =>
    obtain ⟨hle, rfl⟩ := key_of_skipCondition h
    rw [exec_sknp, skipOnKey_ok hle, beq_false]
  all_goals cases h

/-- Settles O28 (R107a): the fetch advances `PC` by 2 and, taken, the skip by 2 more; `PC` was at most 0xFFE, so neither wraps. -/
theorem takenSkipAdvancesByFour : Obligations.TakenSkipAdvancesByFour := by
  intro s i c hrun hf hc
  have hpc := (fetchInstr_ok hf).1
  have hc' : skipCondition i (beginStep s) = some c := hc
  have hstep : step s = .next { beginStep s with pc := if c then s.pc + 2 + 2 else s.pc + 2 } := by
    rw [step_of_fetch hrun hf, exec_of_skipCondition hc', skipIf_eq, beginStep_pc]
  refine ⟨_, hstep, ?_, rfl⟩
  cases c
  · show (s.pc + 2).toNat = s.pc.toNat + 2
    bv_omega
  · show (s.pc + 2 + 2).toNat = s.pc.toNat + 4
    bv_omega

end Sys2Proof.Machine
end

section
/-! SUPPORT. Proofs of the statements on loads, the ALU and random (spec/43_load_alu.md, spec/44_index_jump_random.md). -/

namespace Sys2Proof.Machine

/-! ### What a written register and a flag read as -/

section Reads

variable (s : State) (b : Byte) (c : Bool)

theorem getV_setV_of_ne {r x : Nibble} (h : r ≠ x) : getV (setV s x b) r = getV s r := by
  rw [getV_setV, if_neg h]

theorem getV_setResultAndFlag_result {x : Nibble} (h : x ≠ 15) : getV (setResultAndFlag s x b c) x = b := by
  rw [getV_setResultAndFlag, if_neg h, if_pos rfl]

theorem getV_setResultAndFlag_flag (x : Nibble) : (getV (setResultAndFlag s x b c) 15).toNat = if c then 1 else 0 := by
  rw [getV_setResultAndFlag, if_pos rfl, flagByte_toNat]

theorem getV_setResultAndFlag_of_ne {r x : Nibble} (hx : r ≠ x) (hf : r ≠ 15) :
    getV (setResultAndFlag s x b c) r = getV s r := by
  rw [getV_setResultAndFlag, if_neg hf, if_neg hx]

end Reads

/-! ### Loads and logic -/

/-- Settles O29 (R140, R142). -/
theorem loadsAndCopiesSetOneRegister : Obligations.LoadsAndCopiesSetOneRegister := by
  intro s x y kk
  exact ⟨⟨_, rfl, fun r => getV_setV s x r kk, rfl⟩, ⟨_, rfl, fun r => getV_setV s x r (getV s y), rfl⟩⟩

/-- Settles O30 (R141). -/
theorem addImmediateWraps : Obligations.AddImmediateWraps := by
  intro s x kk
  exact ⟨_, rfl, by rw [getV_setV_self, BitVec.toNat_add], fun r hr => getV_setV_of_ne s _ hr, rfl⟩

/-- Settles O31 (R143 to R145): the bits of each result are those of the library's bitwise operations. -/
theorem logicIsBitwise : Obligations.LogicIsBitwise := by
  intro s x y
  refine ⟨⟨_, rfl, fun k => ?_, fun r hr => getV_setV_of_ne s _ hr, rfl⟩,
    ⟨_, rfl, fun k => ?_, fun r hr => getV_setV_of_ne s _ hr, rfl⟩,
    ⟨_, rfl, fun k => ?_, fun r hr => getV_setV_of_ne s _ hr, rfl⟩⟩
  · rw [getV_setV_self, BitVec.getLsbD_or]
  · rw [getV_setV_self, BitVec.getLsbD_and]
  · rw [getV_setV_self, BitVec.getLsbD_xor]

/-! ### Arithmetic with a flag -/

/-- What the five instructions with a result and a flag have in common: the result in `V[x]` unless x = 15, the flag in `VF`, and
nothing else changed (R151). -/
theorem setResultAndFlag_spec {s : State} {x : Nibble} {b : Byte} {c : Bool} {result flag : Nat} (hb : b.toNat = result)
    (hc : (if c then 1 else 0) = flag) :
    ∃ t, Host.Outcome.next (setResultAndFlag s x b c) = (.next t : Host.Outcome State Fault Refusal) ∧
      (x ≠ 15 → (getV t x).toNat = result) ∧ (getV t 15).toNat = flag ∧
      (∀ r, r ≠ x → r ≠ 15 → getV t r = getV s r) ∧ t = { s with v := t.v } :=
  ⟨_, rfl, fun hx => by rw [getV_setResultAndFlag_result s b c hx, hb],
    by rw [getV_setResultAndFlag_flag, hc], fun _ hx hf => getV_setResultAndFlag_of_ne s b c hx hf, rfl⟩

/-- Settles O32 (R146). -/
theorem addSetsSumAndCarry : Obligations.AddSetsSumAndCarry := by
  intro s x y
  exact setResultAndFlag_spec (BitVec.toNat_add _ _) (by simp [carryOf])

/-- The difference of two bytes as a number (R147, R149). -/
theorem toNat_sub_byte (a b : Byte) : (a - b).toNat = (a.toNat + 256 - b.toNat) % 256 := by
  bv_omega

/-- Settles O33 (R147, R149). -/
theorem subtractionsSetNoBorrow : Obligations.SubtractionsSetNoBorrow := by
  intro s x y
  exact ⟨setResultAndFlag_spec (toNat_sub_byte _ _) (by simp [noBorrow]),
    setResultAndFlag_spec (toNat_sub_byte _ _) (by simp [noBorrow])⟩

/-- Settles O34 (R148, R150): bit 0 is the remainder by 2, bit 7 the quotient by 128. -/
theorem shiftsCaptureTheBitShiftedOut : Obligations.ShiftsCaptureTheBitShiftedOut := by
  intro s x y
  have hlt := (getV s x).isLt
  constructor
  · refine setResultAndFlag_spec ?_ ?_
    · rw [BitVec.toNat_ushiftRight, Nat.shiftRight_one]
    · simp only [shiftedOutRight_eq, decide_eq_true_eq]
      split_ifs <;> omega
  · refine setResultAndFlag_spec ?_ ?_
    · rw [BitVec.toNat_shiftLeft, Nat.shiftLeft_eq, Nat.mul_comm]
    · simp only [shiftedOutLeft_eq, decide_eq_true_eq]
      split_ifs <;> omega

/-- Settles O37 (R162): the byte drawn is masked bit by bit, and a masked byte is at most its mask. -/
theorem rndIsMaskedByTheImmediate : Obligations.RndIsMaskedByTheImmediate := by
  intro s x kk
  refine ⟨_, rfl, ?_, fun k => ?_, fun r hr => ?_, rfl⟩
  · rw [getV_setV_self, BitVec.toNat_and]
    exact Nat.and_le_right
  · rw [getV_setV_self, BitVec.getLsbD_and]
    rfl
  · exact getV_setV_of_ne _ _ hr

end Sys2Proof.Machine
end

section
/-! SUPPORT. Proofs of the statements on index and memory (spec/44_index_jump_random.md, spec/47_index_memory.md). -/

namespace Sys2Proof.Machine

/-- Settles O35 (R160). -/
theorem ldISetsTheAddressRegister : Obligations.LdISetsTheAddressRegister := by
  intro s nnn
  exact ⟨_, rfl, addressOf_toNat nnn, rfl⟩

/-- Settles O36 (R161). -/
theorem indexedJumpAddsV0 : Obligations.IndexedJumpAddsV0 := by
  intro s nnn
  exact ⟨_, rfl, indexedTarget_toNat s nnn, rfl⟩

/-- Settles O44 (R190). -/
theorem addIWrapsAtTwelveBits : Obligations.AddIWrapsAtTwelveBits := by
  intro s x
  exact ⟨_, rfl, indexSum_toNat s (getV s x), rfl⟩

/-- Settles O45 (R191): the last glyph starts 75 bytes above `FONT_BASE`, which is at most 432. -/
theorem ldFPointsAtTheGlyph : Obligations.LdFPointsAtTheGlyph := by
  intro s x
  have hfont := Config.fontBase_le
  have hglyph := glyphAddress_toNat (getV s x)
  refine ⟨_, rfl, hglyph, ?_, rfl⟩
  rw [setI_i, hglyph]
  omega

/-! ### Stores at `I` -/

/-- Bytes that fit, stored at `I` in canonical memory: byte `j` reads back at `I + j`, no other byte changes, and nothing but memory
does (R192, R193). -/
theorem storeAtI_spec {bs : List Byte} {s : State} (h : s.i.toNat + bs.length ≤ 4096) (hm : s.mem.wf = true) :
    ∃ t, storeAtI bs s = .next t ∧ (∀ (j : Nat) (hj : j < bs.length), t.mem.get (s.i.toNat + j) = bs[j]) ∧
      (∀ a, (a < s.i.toNat ∨ s.i.toNat + bs.length ≤ a) → t.mem.get a = s.mem.get a) ∧ t = { s with mem := t.mem } := by
  obtain ⟨m', e, -, hget⟩ := storeAtI_ok (.inr h) hm
  refine ⟨_, e, fun j hj => ?_, fun a ha => ?_, rfl⟩
  · rw [hget, dif_pos (by omega)]
    simp
  · rw [hget, dif_neg (by omega)]

/-- Settles O46 (R192): the three digits, each at its own address, or the fault of the first address above 0xFFF. -/
theorem bcdStoresThreeDigits : Obligations.BcdStoresThreeDigits := by
  intro s x hm
  constructor
  · intro hin
    obtain ⟨t, e, hget, hother, ht⟩ :=
      storeAtI_spec (bs := decimalDigits (getV s x)) (s := s) (by rw [decimalDigits_length]; omega) hm
    have hdigits := decimalDigits_toNat (getV s x)
    simp only [decimalDigits, List.map_cons, List.map_nil, List.cons.injEq] at hdigits
    obtain ⟨hhundreds, htens, hones, -⟩ := hdigits
    have hlen := decimalDigits_length (getV s x)
    exact ⟨t, e, (congrArg _ (hget 0 (by omega))).trans hhundreds, (congrArg _ (hget 1 (by omega))).trans htens,
      (congrArg _ (hget 2 (by omega))).trans hones, hother, ht⟩
  · intro hout
    exact ⟨_, storeAtI_error (List.cons_ne_nil _ _) (by rw [decimalDigits_length]; omega), raise_status s _⟩

/-- Settles O47 (R193). -/
theorem bulkStoreCopiesRegisters : Obligations.BulkStoreCopiesRegisters := by
  intro s x hm hin
  have hlen := regsThrough_length s x
  obtain ⟨t, e, hget, hother, ht⟩ := storeAtI_spec (bs := regsThrough s x) (s := s) (by omega) hm
  refine ⟨t, e, fun r hr => ?_, fun a ha => hother a (by omega), ht⟩
  have hr' : r.toNat < (regsThrough s x).length := by omega
  exact (hget r.toNat hr').trans (regsThrough_getElem s x r hr')

/-- Settles O48 (R194): register r up to x is filled with the r-th byte read. -/
theorem bulkLoadCopiesMemory : Obligations.BulkLoadCopiesMemory := by
  intro s x hin
  refine ⟨_, execLoadRegs_ok hin, fun r => ?_, rfl⟩
  refine (fillRegs_getElem _ s.v 0 r.toNat r.isLt).trans ?_
  split_ifs with hfill hr hr
  · simp
  · simp at hfill
    omega
  · simp at hfill
    omega
  · rfl

/-- Registers with the same sixteen values are the same register file. -/
theorem v_ext {s t : State} (h : ∀ r, getV s r = getV t r) : s.v = t.v := by
  refine Vector.ext fun j hj => ?_
  have := h (BitVec.ofNat 4 j)
  simpa only [getV, BitVec.toNat_ofNat, Nat.mod_eq_of_lt hj] using this

/-- Settles O49 (R193, R194, D9): the store leaves `I` and the registers, so the load reads each register's own byte back. -/
theorem bulkStoreThenLoadIsIdentity : Obligations.BulkStoreThenLoadIsIdentity := by
  intro s x hm hin
  obtain ⟨t, ht, hstored, -, htrest⟩ := bulkStoreCopiesRegisters s x hm hin
  have hi : t.i = s.i := by rw [htrest]
  have hv : s.v = t.v := by rw [htrest]
  obtain ⟨u, hu, hloaded, -⟩ := bulkLoadCopiesMemory t x (by rwa [hi])
  refine ⟨t, u, ht, hu, v_ext fun r => ?_⟩
  rw [hloaded, hi]
  split_ifs with hr
  · exact hstored r hr
  · exact getV_eq_of_v hv.symm r

/-- Settles O50 (R224, R229). -/
theorem dataAccessBeyondMemoryFaults : Obligations.DataAccessBeyondMemoryFaults := by
  intro s
  refine ⟨fun x y n hn hout => ?draw, fun x hout => ⟨?store, ?load⟩⟩
  case draw => exact ⟨_, execDrw_error (by omega) (by omega), raise_status s _⟩
  case store =>
    exact ⟨_, storeAtI_error (regsThrough_ne_nil s x) (by rw [regsThrough_length]; omega), raise_status s _⟩
  case load => exact ⟨_, execLoadRegs_error hout, raise_status s _⟩

/-! ### The canonical form -/

theorem Memory.get_cons_self (k : Nat) (b : Byte) (m : Memory) : Memory.get ((k, b) :: m) k = b := if_pos rfl

theorem Memory.get_cons_of_ne {k a : Nat} (h : a ≠ k) (b : Byte) (m : Memory) : Memory.get ((k, b) :: m) a = m.get a := if_neg h

/-- The first cell of a canonical memory is seen by a read: no memory whose cells all lie above it reads the same there. -/
theorem Memory.get_head_ne {lo k : Nat} {b : Byte} {m m' : Memory} (hm : Memory.wfFrom lo ((k, b) :: m) = true)
    (hm' : Memory.wfFrom (k + 1) m' = true) : Memory.get ((k, b) :: m) k ≠ m'.get k := by
  rw [Memory.get_cons_self, Memory.get_below (Nat.lt_succ_self k) hm']
  exact (Memory.wfFrom_cons.1 hm).2.2.1

/-- Two canonical memories from `lo` on that read the same are the same: their first cells agree, and so do the rests. -/
theorem Memory.eq_of_get_eq : ∀ {m m' : Memory} {lo : Nat}, Memory.wfFrom lo m = true → Memory.wfFrom lo m' = true →
    (∀ a < 4096, m.get a = m'.get a) → m = m'
  | [], [], _, _, _, _ => rfl
  | [], (k, b) :: m', _, _, hm', h =>
    absurd (h k (Memory.wfFrom_cons.1 hm').2.1).symm (Memory.get_head_ne hm' rfl)
  | (k, b) :: m, [], _, hm, _, h => absurd (h k (Memory.wfFrom_cons.1 hm).2.1) (Memory.get_head_ne hm rfl)
  | (k, b) :: m, (k', b') :: m', lo, hm, hm', h => by
    obtain ⟨hlo, hk, hb, hrest⟩ := Memory.wfFrom_cons.1 hm
    obtain ⟨hlo', hk', hb', hrest'⟩ := Memory.wfFrom_cons.1 hm'
    rcases Nat.lt_trichotomy k k' with hlt | rfl | hgt
    · exact absurd (h k hk) (Memory.get_head_ne hm (Memory.wfFrom_cons.2 ⟨hlt, hk', hb', hrest'⟩))
    · have hbb : b = b' := by simpa only [Memory.get_cons_self] using h k hk
      have htail : m = m' := by
        refine Memory.eq_of_get_eq hrest hrest' fun a ha => ?_
        by_cases hak : a = k
        · rw [hak, Memory.get_below (Nat.lt_succ_self k) hrest, Memory.get_below (Nat.lt_succ_self k) hrest']
        · simpa only [Memory.get_cons_of_ne hak] using h a ha
      rw [hbb, htail]
    · exact absurd (h k' hk').symm (Memory.get_head_ne hm' (Memory.wfFrom_cons.2 ⟨hgt, hk, hb, hrest⟩))

/-- Settles O14. -/
theorem canonicalMemoryIsUnique : Obligations.CanonicalMemoryIsUnique :=
  fun _ _ hm hm' h => Memory.eq_of_get_eq hm hm' h

end Sys2Proof.Machine
end

section
/-! SUPPORT. Proofs of the statements on keypad, timers and the driver's operations (spec/46_keypad_timers.md,
spec/48_host_operations.md). -/

namespace Sys2Proof.Machine

/-- `beep` is the level `ST` ≠ 0 (R32, R203). -/
theorem beep_iff (s : State) : beep s = true ↔ s.st ≠ 0 := by
  rw [beep, bne_iff_ne]

/-- Settles O41 (R182 to R184). -/
theorem timerLoads : Obligations.TimerLoads := by
  intro s x
  refine ⟨⟨_, rfl, fun r => getV_setV s x r s.dt, rfl⟩, rfl, ⟨_, rfl, rfl, ?_, ?_, rfl⟩⟩
  · exact bne_iff_ne
  · exact beep_iff _

/-- Settles O42 (R185): the search for the lowest key finds `k` exactly when `k` is down and no lower key is. -/
theorem keyWaitTakesTheLowestKey : Obligations.KeyWaitTakesTheLowestKey := by
  intro s x
  constructor
  · intro k hdown hlower
    have hk : lowestKey s = some k.toNat := lowestKey_some.2 ⟨k, rfl, hdown, hlower⟩
    have hbyte : BitVec.ofNat 8 k.toNat = k.setWidth 8 := BitVec.ofNat_toNat 8 k
    refine ⟨_, execLdVxK_some hk, fun r => ?_, rfl⟩
    rw [getV_setV, hbyte]
  · intro hup
    exact execLdVxK_none (lowestKey_none.2 hup)

/-- Settles O43 (R185c): the rewind undoes the advance of `PC`. -/
theorem waitingStepChangesNothing : Obligations.WaitingStepChangesNothing := by
  intro s x hrun hf hup
  have hwait : exec (.ldVxK x) (beginStep s) = .next { beginStep s with pc := s.pc + 2 - 2 } :=
    (keyWaitTakesTheLowestKey (beginStep s) x).2 hup
  rw [step_of_fetch hrun hf, hwait, BitVec.add_sub_cancel]
  rfl

/-- Settles O56 (R200): `tickDown` is truncated subtraction, so `ST` is still nonzero exactly from 2 on. -/
theorem tickDecrementsBothTimers : Obligations.TickDecrementsBothTimers := by
  intro s
  refine ⟨tickDown_toNat s.dt, tickDown_toNat s.st, ?_, rfl⟩
  have hst := tickDown_toNat s.st
  rw [beep_iff, tickTimers_st, ne_eq, ← BitVec.toNat_inj, hst]
  show ¬s.st.toNat - 1 = 0 ↔ 2 ≤ s.st.toNat
  omega

/-- Settles O58 (R201). -/
theorem writeKeypadSetsEveryKey : Obligations.WriteKeypadSetsEveryKey := by
  intro s k
  exact ⟨fun j => rfl, rfl⟩

/-! ### The framebuffer as it is read -/

/-- In a list of lists of one length `n`, joined, element `i` of list `j` stands at `j * n + i`. -/
theorem getElem?_flatMap_of_length {α β : Type} {f : α → List β} {n : Nat} (hf : ∀ a, (f a).length = n) {i : Nat} (hi : i < n) :
    ∀ (l : List α) (j : Nat) (hj : j < l.length), (l.flatMap f)[j * n + i]? = (f l[j])[i]?
  | a :: l, 0, _ => by
    rw [List.flatMap_cons, Nat.zero_mul, Nat.zero_add, List.getElem?_append_left (by rw [hf]; exact hi)]
    rfl
  | a :: l, j + 1, hj => by
    have hpos : (j + 1) * n + i = n + (j * n + i) := by rw [Nat.succ_mul]; omega
    rw [List.flatMap_cons, hpos, List.getElem?_append_right (by rw [hf]; omega), hf, Nat.add_sub_cancel_left,
      getElem?_flatMap_of_length hf hi l j (Nat.lt_of_succ_lt_succ hj)]
    rfl

/-- Settles O60 (R202): row `y` is the y-th block of 64 pixels. -/
theorem readFramebufferIsRowMajor : Obligations.ReadFramebufferIsRowMajor := by
  intro s
  refine ⟨?_, fun x y hx hy => ?_, rfl⟩
  · simp [readFramebuffer]
  · have hrow : y < s.fb.toList.length := by simpa using hy
    rw [readFramebuffer, getElem?_flatMap_of_length (fun row => Vector.length_toList) hx _ y hrow]
    simp [getPixel, Nat.mod_eq_of_lt, hx, hy]

/-! ### Schedules -/

/-- `DT` after one operation that neither loads it nor faults: one less, or 0, after a tick, and the same after any other (R106,
R200). -/
theorem perform_dt {op : DriverOp} {ops : List DriverOp} {s t : State} (hs : s.status = .running) (ht : t.status = .running)
    (hno : NoDelayLoad (op :: ops) s) (h : perform op s = .next t) : t.dt.toNat = s.dt.toNat - tickCount [op] := by
  obtain ⟨hinit, hload, -⟩ := hno
  cases op with
  | init rom => exact absurd rfl (hinit rom)
  | step =>
    obtain ⟨c, -, e⟩ | ⟨i, hf, e⟩ := step_running hs
    · cases e.symm.trans h
      exact absurd ht (raise_not_running c s)
    · have he := effect_of_running (e.symm.trans h) ht
      have hdt : t.dt = s.dt := he.dt_eq fun x hx => hload rfl x (hx ▸ hf)
      rw [hdt]
      rfl
  | tickTimers => cases h; exact tickDown_toNat s.dt
  | writeKeypad | readFramebuffer | snapshot | dumpMemory => cases h; rfl

theorem SafeSchedule.running {ops : List DriverOp} {s : State} (h : SafeSchedule ops s) : s.status = .running := by
  cases ops with
  | nil => exact h
  | cons op ops => exact h.1

/-- Settles O57: by induction on the schedule; each operation takes from `DT` the ticks it is, and truncated subtractions add up. -/
theorem delayTimerCountsTicksOnly : Obligations.DelayTimerCountsTicksOnly := by
  intro ops
  induction ops with
  | nil =>
    intro s t _ _ h
    cases h
    rfl
  | cons op ops ih =>
    intro s t hsafe hno h
    obtain ⟨hrun, u, hu, hsafe'⟩ := hsafe
    have hrest : performAll ops u = .next t := by
      rw [performAll, hu] at h
      exact h
    have hticks : tickCount (op :: ops) = tickCount [op] + tickCount ops := by
      simp only [tickCount, List.count_cons, List.count_nil]
      omega
    rw [ih u t hsafe' (hno.2.2 u hu) hrest, perform_dt hrun hsafe'.running hno hu, hticks, Nat.sub_sub]

end Sys2Proof.Machine
end

section
/-! SUPPORT. Proofs of the statements on reset, the fetch of a step and its faults (spec/40_step_cycle.md, spec/60_exceptions.md,
spec/70_reset_and_hazards.md). -/

namespace Sys2Proof.Machine

/-- Settles O16 (R250): every field is the reset state's. -/
theorem initResetsEveryRegister : Obligations.InitResetsEveryRegister := by
  intro rom s hrom
  rw [initCore_of_fits hrom]
  refine ⟨fun r => ?v, rfl, rfl, rfl, fun j hj => ?stack, rfl, rfl, rfl, fun k => ?keys, getPixel_blankScreen, rfl, rfl, rfl⟩
  case v => exact Vector.getElem_replicate _
  case stack => exact Vector.getElem_replicate _
  case keys => exact Vector.getElem_replicate _

/-- After `Init` the byte at 0x200 + j is the j-th of the ROM, or zero where the ROM has ended (R252). -/
theorem initCore_mem_get_program {rom : List Byte} (h : rom.length ≤ Config.romMax) (s : State) (j : Nat) :
    (initCore rom s).mem.get (0x200 + j) = rom.getD j 0 := by
  have hfont := Config.fontBase_le
  rw [initCore_mem_get h]
  split_ifs with hj
  · simp [show j < rom.length by omega]
  · rw [Memory.unlisted_zero (by omega), List.getD_eq_default _ _ (by omega)]

/-- Settles O18 (R253). -/
theorem firstFetchReadsTheRom : Obligations.FirstFetchReadsTheRom := by
  intro rom s hrom
  have hpc : (initCore rom s).pc = 0x200 := by
    rw [initCore_of_fits hrom]
    rfl
  have hpc' : (initCore rom s).pc.toNat = 0x200 := congrArg BitVec.toNat hpc
  refine ⟨hpc, ?_⟩
  rw [fetchWord_ok (by omega), hpc', ← initCore_mem_get_program hrom s 0, ← initCore_mem_get_program hrom s 1]

/-- Bytes that decode to an instruction make a word that does. -/
theorem decodeWord_of_decode {hi lo : Byte} {i : Instr} {rest : List Byte} (h : decode [hi, lo] = .ok (i, rest)) :
    decodeWord (wordOfBytes hi lo) = .ok i := by
  rw [decode] at h
  split at h
  · cases h
    assumption
  · cases h

/-- Settles O6: the fetch reads the two bytes, and what is executed on is the state `beginStep` leaves (R101, R103). -/
theorem stepRunsTheDecodedInstruction : Obligations.StepRunsTheDecodedInstruction := by
  intro s i hrun hpc hdec
  have hfetch : fetchInstr s = .ok i := by
    rw [fetchInstr, fetchWord_ok hpc]
    simp only [decodeWord_of_decode hdec]
  exact step_of_fetch hrun hfetch

/-- A step whose fetch or decode fails takes that fault (R100). -/
theorem step_of_fetch_error {s : State} {c : Cause} (hrun : s.status = .running) (hf : fetchInstr s = .error c) :
    step s = .next (raise c s) := by
  obtain ⟨c', hf', e⟩ | ⟨i, hf', -⟩ := step_running hrun
  · cases hf.symm.trans hf'
    exact e
  · cases hf.symm.trans hf'

/-- Settles O7: out of bounds the fetch fails; in bounds the word is `op`, which no row selects, and the decoder refuses it. -/
theorem fetchAndDecodeFaults : Obligations.FetchAndDecodeFaults := by
  intro s hrun
  refine ⟨fun hout => ?_, fun op hpc hop hno => ?_⟩
  · have hf : fetchInstr s = .error (.memoryBounds (max s.pc.toNat 0x1000)) := by
      rw [fetchInstr, fetchWord_error hout]
    exact ⟨_, step_of_fetch_error hrun hf, raise_status s _⟩
  · have hword : wordOfBytes (s.mem.get s.pc.toNat) (s.mem.get (s.pc.toNat + 1)) = op :=
      BitVec.toNat_inj.1 ((wordOfBytes_toNat _ _).trans hop.symm)
    have hf : fetchInstr s = .error (.illegalInstruction op s.pc) := by
      rw [fetchInstr, fetchWord_ok hpc, hword]
      simp only [decodeWord_of_no_row hno]
    exact ⟨_, step_of_fetch_error hrun hf, raise_status s _⟩

/-- Settles O9 (R231): a step is not enabled, the other operations but `Init` leave the latch, and `Init` starts afresh. -/
theorem onlyInitLeavesAFault : Obligations.OnlyInitLeavesAFault := by
  intro s c hs
  refine ⟨step_faulted hs, fun op t h hne => ?_, fun rom hrom => ⟨_, rfl, ?_⟩⟩
  · cases op with
    | init rom => exact ⟨rom, rfl⟩
    | step => cases (step_faulted hs).symm.trans h
    | tickTimers | writeKeypad | readFramebuffer | snapshot | dumpMemory => cases h; exact absurd hs hne
  · rw [initCore_of_fits hrom]
    rfl

end Sys2Proof.Machine
end

section
/-! SUPPORT. Proofs of the statements on draw (spec/45_draw.md): the sprite as a picture of bits, and when it collides. -/

namespace Sys2Proof.Machine

variable {s t : State} {x y n : Nibble}

/-- The bit the sprite `DRW Vx, Vy, n` draws in the state `s` puts on the pixel `(px, py)` (R170, R171). -/
def spriteAt (s : State) (x y n : Nibble) (px py : Nat) : Bool :=
  spriteBit s.mem s.i.toNat n.toNat (getV s x).toNat (getV s y).toNat px py

/-- The sprite's bytes, as the draw reads them. -/
def spriteBytes (s : State) (n : Nibble) : List Byte := (List.range' s.i.toNat n.toNat).map s.mem.get

@[simp] theorem spriteBytes_length (s : State) (n : Nibble) : (spriteBytes s n).length = n.toNat := by
  simp [spriteBytes]

theorem spriteBytes_getD {j : Nat} (h : j < n.toNat) : (spriteBytes s n).getD j 0 = s.mem.get (s.i.toNat + j) := by
  simp [spriteBytes, h]

/-- A draw XORs the sprite onto the screen. -/
theorem getPixel_drawing {px py : Nat} (hx : px < 64) (hy : py < 32) :
    getPixel (drawing s x y n).1 px py = (getPixel s.fb px py ^^ spriteAt s x y n px py) := by
  have hlen : (spriteBytes s n).length ≤ 32 := by rw [spriteBytes_length]; omega
  have h := getPixel_drawRows (getV s x).toNat px py hx hy (spriteBytes s n) (getV s y).toNat (s.fb, false) hlen
  refine h.trans ?_
  rw [spriteBytes_length, spriteAt, spriteBit, Bool.and_assoc]
  by_cases hrow : spriteRow (getV s y).toNat py < n.toNat
  · rw [spriteBytes_getD hrow]
  · simp [hrow]

/-- A draw collides when some bit of the sprite lies on a set pixel of the screen. -/
theorem drawing_hit : (drawing s x y n).2 = true ↔
    ∃ px py, px < 64 ∧ py < 32 ∧ getPixel s.fb px py = true ∧ spriteAt s x y n px py = true := by
  have hlen : (spriteBytes s n).length ≤ 32 := by rw [spriteBytes_length]; omega
  have h := drawRows_hit (getV s x).toNat (spriteBytes s n) (getV s y).toNat (s.fb, false) hlen
  refine h.trans ?_
  simp only [Bool.false_eq_true, false_or, spriteBytes_length]
  constructor
  · rintro ⟨j, hj, c, hc, hb, hp⟩
    refine ⟨((getV s x).toNat + c) % 64, ((getV s y).toNat + j) % 32, Nat.mod_lt _ (by decide), Nat.mod_lt _ (by decide),
      (getPixel_mod _ _ _).trans hp, ?_⟩
    rw [spriteBytes_getD hj] at hb
    simp [spriteAt, spriteBit, spriteCol_at _ c (by omega), spriteRow_at _ j (by omega), hj, hc, hb]
  · rintro ⟨px, py, hx, hy, hp, hb⟩
    simp only [spriteAt, spriteBit, Bool.and_eq_true, decide_eq_true_eq] at hb
    obtain ⟨⟨hj, hc⟩, hb⟩ := hb
    refine ⟨_, hj, _, hc, by rwa [spriteBytes_getD hj], ?_⟩
    rwa [← getPixel_mod, add_spriteCol _ _ hx, add_spriteRow _ _ hy]

/-- Settles O38 (R170 to R172). -/
theorem drawXorsTheSprite : Obligations.DrawXorsTheSprite := by
  intro s x y n hin
  refine ⟨_, execDrw_ok hin, fun px py hx hy => getPixel_drawing hx hy, fun hhit => ?_, fun hno => ?_,
    fun r hr => getV_setV_of_ne _ _ hr, rfl⟩
  · have : (drawing s x y n).2 = true := drawing_hit.2 hhit
    rw [getV_setV_self, this]
    rfl
  · have : (drawing s x y n).2 = false := by
      rw [Bool.eq_false_iff, ne_eq, drawing_hit]
      rintro ⟨px, py, hx, hy, hp, hb⟩
      exact absurd hb (by rw [spriteAt, hno px py hx hy hp]; decide)
    rw [getV_setV_self, this]
    rfl

/-- A sprite has a bit on the screen exactly when one of its bytes is nonzero. -/
theorem exists_spriteAt : (∃ px py, px < 64 ∧ py < 32 ∧ spriteAt s x y n px py = true) ↔
    ∃ row < n.toNat, s.mem.get (s.i.toNat + row) ≠ 0 := by
  constructor
  · rintro ⟨px, py, -, -, hb⟩
    simp only [spriteAt, spriteBit, Bool.and_eq_true, decide_eq_true_eq] at hb
    obtain ⟨⟨hj, -⟩, hb⟩ := hb
    refine ⟨_, hj, fun h0 => ?_⟩
    rw [h0] at hb
    simp at hb
  · rintro ⟨j, hj, hne⟩
    obtain ⟨k, hk, hb⟩ : ∃ k < 8, (s.mem.get (s.i.toNat + j)).getLsbD k = true := by
      by_contra hnone
      push Not at hnone
      exact hne (BitVec.eq_of_getLsbD_eq fun k hk => by simpa using hnone k hk)
    refine ⟨((getV s x).toNat + (7 - k)) % 64, ((getV s y).toNat + j) % 32, Nat.mod_lt _ (by decide),
      Nat.mod_lt _ (by decide), ?_⟩
    simp [spriteAt, spriteBit, spriteCol_at _ (7 - k) (by omega), spriteRow_at _ j (by omega), hj, show 7 - (7 - k) = k by omega,
      hb, show 7 - k < 8 by omega]

/-- Settles O39: the second draw puts the same sprite on what the first left, and a bit XORed twice is the bit. On a clear screen
the first draw leaves the sprite alone, so the second collides where the sprite has a bit. -/
theorem drawingTwiceRestoresTheScreen : Obligations.DrawingTwiceRestoresTheScreen := by
  intro s x y n hx hy hin
  obtain ⟨t, ht, htpix, -, htclear, htregs, htrest⟩ := drawXorsTheSprite s x y n hin
  have hi : t.i = s.i := by rw [htrest]
  have hm : t.mem = s.mem := by rw [htrest]
  obtain ⟨u, hu, hupix, huhit, huclear, -, -⟩ := drawXorsTheSprite t x y n (by rwa [hi])
  rw [hi, hm, htregs x hx, htregs y hy] at hupix huhit huclear
  refine ⟨t, u, ht, hu, screen_ext fun px py hpx hpy => ?_, fun hblank => ?_⟩
  · rw [hupix px py hpx hpy, htpix px py hpx hpy, Bool.xor_assoc, Bool.xor_self, Bool.xor_false]
  · have hoff : ∀ px py, getPixel s.fb px py = false := fun px py => by rw [hblank, getPixel_blankScreen]
    have hsprite : ∀ px py, px < 64 → py < 32 → getPixel t.fb px py = spriteAt s x y n px py := fun px py hpx hpy => by
      rw [htpix px py hpx hpy, hoff, Bool.false_xor, spriteAt]
    refine ⟨htclear fun px py _ _ hon => ?_, fun hset => ?_, fun hzero => ?_⟩
    · rw [hoff] at hon
      cases hon
    · obtain ⟨px, py, hpx, hpy, hb⟩ := exists_spriteAt.2 hset
      exact huhit ⟨px, py, hpx, hpy, (hsprite px py hpx hpy).trans hb, hb⟩
    · refine huclear fun px py hpx hpy _ => Bool.eq_false_iff.2 fun hb => ?_
      obtain ⟨row, hrow, hne⟩ := exists_spriteAt.1 ⟨px, py, hpx, hpy, hb⟩
      exact hne (hzero row hrow)

end Sys2Proof.Machine
end
